-- ==== Sys2Proof/Word.lean ====
section
/-! DEFINITION. The word types of the core (spec/00_scope.md rules R6 and R7). -/

namespace Sys2Proof

/-- `u8`: a byte, the unit of the program buffer (R6, R7). -/
abbrev Byte := BitVec 8

/-- `u16`: a general register, the instruction pointer, a direct address (R6, R7). -/
abbrev Word := BitVec 16

end Sys2Proof
end

