-- ==== Sys2Proof/Config.lean ====
section
/-! DEFINITION. The implementation parameters of spec/00_scope.md rule R6: the program buffer with its
length, the execution mode and the byte-flags mode. They are fixed for a run (R157) and no step writes
them (R11, R48). The spec leaves no value free, so this file declares no opaque constant. -/

namespace Sys2Proof

/-- `EXEC_MODE` (R6, 92_eei_decisions.md D4). -/
inductive ExecMode where
  /-- The core decodes and executes: the default. -/
  | execute
  /-- The core decodes and lists, and executes nothing (R90). -/
  | decodeOnly
  deriving DecidableEq, Repr

/-- `BYTE_FLAGS_MODE` (R6, R106, 92_eei_decisions.md D9). -/
inductive ByteFlagsMode where
  /-- Flags of a byte operation come from the 8-bit result, sign-widened: the default. -/
  | narrow
  /-- Flags of a byte operation come from the 16-bit sum of the operand values. -/
  | wide16
  deriving DecidableEq, Repr

/-- The program buffer `B` as (offset, byte) cells. An unlisted offset reads as `Config.unlisted`. -/
abbrev Memory := List Host.Cell

/-- What an unlisted offset of the buffer reads as. A representation choice: the caller supplies every
byte of the buffer (R160), and a zero byte is simply not listed. DESIGN CHOICE, notes/assumptions/4.md. -/
def Config.unlisted : Byte := 0

/-- The greatest buffer length: `0 <= L <= 65535` (R6, R160, D2). -/
def Config.maxLength : Nat := 65535

/-- The parameters of a run (R6). -/
structure Params where
  /-- `L`, the program buffer length; its type is exactly the range `0 <= L <= 65535` of R6. -/
  len : Fin 65536
  /-- `B`, the program buffer: offsets `0 .. L-1` exist (R34). -/
  buf : Memory
  /-- `EXEC_MODE`. -/
  execMode : ExecMode
  /-- `BYTE_FLAGS_MODE`. -/
  byteFlags : ByteFlagsMode
  deriving DecidableEq, Repr

end Sys2Proof
end

