-- ==== Sys2Proof/Syntax.lean ====
section
/-! DEFINITION. The instructions of the subset, one constructor for each row of spec/opcode_table.json,
and the data types of the decoder's output (spec/30_encoding.md rules R50, R55, R58, R60, R68, R77). -/

namespace Sys2Proof

/-- The w flag: byte when `w = 0`, word when `w = 1` (R71). -/
inductive Width where
  | byte
  | word
  deriving DecidableEq, Repr

/-- The closed enumeration of 16 register names (R12), in the order of the table of R54. -/
inductive Reg where
  | al | cl | dl | bl | ah | ch | dh | bh
  | ax | cx | dx | bx | sp | bp | si | di
  deriving DecidableEq, Repr

/-- The eight EAC forms (R55). -/
inductive Eac where
  | bxSi | bxDi | bpSi | bpDi | si | di | bp | bx
  deriving DecidableEq, Repr

/-- The displacement bytes after a mode byte: none, one or two (R56). A present zero stays present (D31). -/
inductive Disp where
  | absent
  | disp8 (b : Byte)
  | disp16 (v : Word)
  deriving DecidableEq, Repr

/-- A register-or-memory operand as encoded: the three results of `rm_operand` (R58). -/
inductive Rm where
  | reg (r : Reg)
  | mem (eac : Eac) (disp : Disp)
  | direct (addr : Word)
  deriving DecidableEq, Repr

/-- The immediate bytes of an instruction: none (`0x82` only), one or two (R60). -/
inductive Imm where
  | absent
  | imm8 (b : Byte)
  | imm16 (v : Word)
  deriving DecidableEq, Repr

/-- The members of the jump/loop family (R68), in the order of their opcodes. -/
inductive Jcc where
  | jo | jno | jb | jnb | je | jne | jbe | ja
  | js | jns | jp | jnp | jl | jnl | jle | jg
  | loopnz | loopz | loop | jcxz
  deriving DecidableEq, Repr

/-- The opcode classes (R50); the jump/loop family has one class per opcode. -/
inductive OpClass where
  | movRmReg | movImmRm | movImmReg | movMemAcc | movAccMem
  | addRmReg | addImmAcc
  | subRmReg | subImmAcc
  | cmpRmReg | cmpImmAcc
  | arithImmRm
  | jcc (j : Jcc)
  deriving DecidableEq, Repr

/-- One pattern of the Bit-Pattern Matcher: `insert(pattern, length, class)` (R51). -/
structure PatternRow where
  /-- The pattern's bits as a number of `len` bits. -/
  bits : Nat
  /-- The pattern's length, 1 to 8. -/
  len : Nat
  /-- The class it stands for. -/
  cls : OpClass
  deriving DecidableEq, Repr

/-- The operation of an instruction record (R77). -/
inductive Op where
  | mov | add | sub | cmp
  | jump (j : Jcc)
  deriving DecidableEq, Repr

/-- An operand of the instruction record (00_scope.md glossary, R58, R60). An `i16` is an integer. -/
inductive Operand where
  | register (r : Reg)
  | memory (eac : Eac) (disp : Option Int)
  | memoryDirect (addr : Word)
  | immediate (i : Int)
  | immediateAbsent
  deriving DecidableEq, Repr

/-- The operand list of the instruction record: destination then source, or a jump's displacement (R77). -/
inductive Operands where
  | pair (dst src : Operand)
  | displacement (rel : Int)
  deriving DecidableEq, Repr

/-- The instruction record (R77). A flag the class does not have is `none`. -/
structure InstrRecord where
  /-- The opcode class. -/
  cls : OpClass
  /-- The operation. -/
  op : Op
  /-- The direction flag: `*_RM_REG` only. -/
  d : Option Bool
  /-- The word flag: absent for the jump/loop family. -/
  w : Option Width
  /-- The sign-extend flag: `ARITH_IMM_RM` only. -/
  s : Option Bool
  /-- The operands, destination first. -/
  operands : Operands
  /-- The total encoded length in bytes. -/
  len : Nat
  deriving DecidableEq, Repr

/-- The instructions: one constructor per row of spec/opcode_table.json, in the table's order.
`d`, `s` and `w` are the flags of R50; `rm` and `reg` the operands of the mode byte (R53); `rel` the raw
displacement byte of a jump (R59). -/
inductive Instr where
  /-- MOV r/m <-> reg, `100010dw` (R99). -/
  | movRmReg (d : Bool) (w : Width) (rm : Rm) (reg : Reg)
  /-- MOV imm -> r/m, `1100011w` with reg field 000 (R100). -/
  | movImmRm (w : Width) (rm : Rm) (imm : Imm)
  /-- MOV imm -> reg, `1011wrrr` (R101). -/
  | movImmReg (w : Width) (reg : Reg) (imm : Imm)
  /-- MOV direct memory -> AL/AX, `1010000w` (R102). -/
  | movMemAcc (w : Width) (addr : Word)
  /-- MOV AL/AX -> direct memory, `1010001w` (R103). -/
  | movAccMem (w : Width) (addr : Word)
  /-- ADD r/m <-> reg, `000000dw` (R108). -/
  | addRmReg (d : Bool) (w : Width) (rm : Rm) (reg : Reg)
  /-- ADD imm -> r/m, `100000sw` with reg field 000 (R109). -/
  | addImmRm (s : Bool) (w : Width) (rm : Rm) (imm : Imm)
  /-- ADD imm -> AL/AX, `0000010w` (R110). -/
  | addImmAcc (w : Width) (imm : Imm)
  /-- SUB r/m <-> reg, `001010dw` (R111). -/
  | subRmReg (d : Bool) (w : Width) (rm : Rm) (reg : Reg)
  /-- SUB imm -> r/m, `100000sw` with reg field 101 (R112). -/
  | subImmRm (s : Bool) (w : Width) (rm : Rm) (imm : Imm)
  /-- SUB imm -> AL/AX, `0010110w` (R113). -/
  | subImmAcc (w : Width) (imm : Imm)
  /-- CMP r/m <-> reg, `001110dw` (R114). -/
  | cmpRmReg (d : Bool) (w : Width) (rm : Rm) (reg : Reg)
  /-- CMP imm -> r/m, `100000sw` with reg field 111 (R115). -/
  | cmpImmRm (s : Bool) (w : Width) (rm : Rm) (imm : Imm)
  /-- CMP imm -> AL/AX, `0011110w` (R116). -/
  | cmpImmAcc (w : Width) (imm : Imm)
  /-- `70 rr` (R121). -/
  | jo (rel : Byte)
  /-- `71 rr` (R122). -/
  | jno (rel : Byte)
  /-- `72 rr` (R123). -/
  | jb (rel : Byte)
  /-- `73 rr` (R124). -/
  | jnb (rel : Byte)
  /-- `74 rr` (R125). -/
  | je (rel : Byte)
  /-- `75 rr` (R126): the one jump that transfers control. -/
  | jne (rel : Byte)
  /-- `76 rr` (R127). -/
  | jbe (rel : Byte)
  /-- `77 rr` (R128). -/
  | ja (rel : Byte)
  /-- `78 rr` (R129). -/
  | js (rel : Byte)
  /-- `79 rr` (R130). -/
  | jns (rel : Byte)
  /-- `7A rr` (R131). -/
  | jp (rel : Byte)
  /-- `7B rr` (R132). -/
  | jnp (rel : Byte)
  /-- `7C rr` (R133). -/
  | jl (rel : Byte)
  /-- `7D rr` (R134). -/
  | jnl (rel : Byte)
  /-- `7E rr` (R135). -/
  | jle (rel : Byte)
  /-- `7F rr` (R136). -/
  | jg (rel : Byte)
  /-- `E0 rr` (R137). -/
  | loopnz (rel : Byte)
  /-- `E1 rr` (R138). -/
  | loopz (rel : Byte)
  /-- `E2 rr` (R139). -/
  | loop (rel : Byte)
  /-- `E3 rr` (R140). -/
  | jcxz (rel : Byte)
  deriving DecidableEq, Repr

end Sys2Proof
end

