-- ==== Sys2Proof/WellFormed.lean ====
section
/-! DEFINITION. Which terms of Instr an encoding can give: the register widths agree with the w flag
(spec/30_encoding.md R71), the immediate has the number of bytes the flags give (R62), and `[bp]` without a
displacement does not exist, since mod = 00 with rm = 110 is the direct address (R56, R58). -/

namespace Sys2Proof

/-- The width of a register name (R12). -/
def Reg.width : Reg → Width
  | .al | .cl | .dl | .bl | .ah | .ch | .dh | .bh => .byte
  | .ax | .cx | .dx | .bx | .sp | .bp | .si | .di => .word

/-- An r/m operand that an instruction of width `w` can name (R58, R71). -/
def Rm.fits (w : Width) : Rm → Bool
  | .reg r => r.width = w
  | .mem .bp .absent => false
  | .mem _ _ => true
  | .direct _ => true

/-- How many bytes an immediate holds (R60). -/
def Imm.size : Imm → Nat
  | .absent => 0
  | .imm8 _ => 1
  | .imm16 _ => 2

/-- The immediate's size agrees with `k = w + 1 - s` (R62): the four combinations of its table. -/
def Imm.fits (s : Bool) (w : Width) (i : Imm) : Bool :=
  match s, w with
  | false, .byte => i.size = 1
  | false, .word => i.size = 2
  | true, .word => i.size = 1
  | true, .byte => i.size = 0

/-- The terms that some bytes decode to. -/
def Instr.wf : Instr → Bool
  | .movRmReg _ w rm reg => rm.fits w && reg.width = w
  | .movImmRm w rm imm => rm.fits w && imm.fits false w
  | .movImmReg w reg imm => reg.width = w && imm.fits false w
  | .movMemAcc _ _ => true
  | .movAccMem _ _ => true
  | .addRmReg _ w rm reg => rm.fits w && reg.width = w
  | .addImmRm s w rm imm => rm.fits w && imm.fits s w
  | .addImmAcc w imm => imm.fits false w
  | .subRmReg _ w rm reg => rm.fits w && reg.width = w
  | .subImmRm s w rm imm => rm.fits w && imm.fits s w
  | .subImmAcc w imm => imm.fits false w
  | .cmpRmReg _ w rm reg => rm.fits w && reg.width = w
  | .cmpImmRm s w rm imm => rm.fits w && imm.fits s w
  | .cmpImmAcc w imm => imm.fits false w
  | .jo _ | .jno _ | .jb _ | .jnb _ | .je _ | .jne _ | .jbe _ | .ja _ => true
  | .js _ | .jns _ | .jp _ | .jnp _ | .jl _ | .jnl _ | .jle _ | .jg _ => true
  | .loopnz _ | .loopz _ | .loop _ | .jcxz _ => true

end Sys2Proof
end

