-- ==== Sys2Proof/Decode.lean ====
section
/-! DEFINITION. The decoder (spec/30_encoding.md rules R49-R79), the instruction record it yields (R77),
and after them an encoder written from the same tables. The decoder reads the bytes that stand from the
instruction's first byte to the end of the buffer, as a list. -/

namespace Sys2Proof

/-- The two kinds of decode failure (R78). -/
inductive DecodeFault where
  /-- The leading bytes match no pattern of the subset (R142). Safe: the machine stops as the spec says. -/
  | unknownOpcode
  /-- More bytes are needed than remain in the buffer (R143). Safe: the machine stops as the spec says. -/
  | truncatedInstruction
  deriving DecidableEq, Repr

/-! ## Values (00_scope.md rule R7) -/

/-- `sext_16(b)`: bit 7 is replicated into bits 8-15. -/
def sext16 (b : Byte) : Word := b.signExtend 16

/-- `zext_16(b)`: `0x00 ++ b`. -/
def zext16 (b : Byte) : Word := b.setWidth 16

/-- `le16(lo, hi)`: `hi ++ lo`, the low byte first in the byte stream (R37). -/
def le16 (lo hi : Byte) : Word := hi ++ lo

/-- Bits 7..0 of a word. -/
def lowByte (v : Word) : Byte := v.setWidth 8

/-- Bits 15..8 of a word. -/
def highByte (v : Word) : Byte := v.extractLsb' 8 8

/-- `signed16(v)`: the `i16` with the bits of `v`. -/
def signed16 (v : Word) : Int := v.toInt

/-- `unsigned16(x)`: `x mod 65536`. -/
def unsigned16 (x : Int) : Word := BitVec.ofInt 16 x

/-! ## The Bit-Pattern Matcher (R50-R52) -/

/-- The patterns of R50 with prefix lengths 4, 6 and 7. -/
def formPatterns : List PatternRow :=
  [ ⟨0b100010, 6, .movRmReg⟩, ⟨0b1100011, 7, .movImmRm⟩, ⟨0b1011, 4, .movImmReg⟩,
    ⟨0b1010000, 7, .movMemAcc⟩, ⟨0b1010001, 7, .movAccMem⟩,
    ⟨0b000000, 6, .addRmReg⟩, ⟨0b0000010, 7, .addImmAcc⟩,
    ⟨0b001010, 6, .subRmReg⟩, ⟨0b0010110, 7, .subImmAcc⟩,
    ⟨0b001110, 6, .cmpRmReg⟩, ⟨0b0011110, 7, .cmpImmAcc⟩,
    ⟨0b100000, 6, .arithImmRm⟩ ]

/-- The 20 full-byte patterns of R68. -/
def jumpPatterns : List PatternRow :=
  [ ⟨0x70, 8, .jcc .jo⟩, ⟨0x71, 8, .jcc .jno⟩, ⟨0x72, 8, .jcc .jb⟩, ⟨0x73, 8, .jcc .jnb⟩,
    ⟨0x74, 8, .jcc .je⟩, ⟨0x75, 8, .jcc .jne⟩, ⟨0x76, 8, .jcc .jbe⟩, ⟨0x77, 8, .jcc .ja⟩,
    ⟨0x78, 8, .jcc .js⟩, ⟨0x79, 8, .jcc .jns⟩, ⟨0x7A, 8, .jcc .jp⟩, ⟨0x7B, 8, .jcc .jnp⟩,
    ⟨0x7C, 8, .jcc .jl⟩, ⟨0x7D, 8, .jcc .jnl⟩, ⟨0x7E, 8, .jcc .jle⟩, ⟨0x7F, 8, .jcc .jg⟩,
    ⟨0xE0, 8, .jcc .loopnz⟩, ⟨0xE1, 8, .jcc .loopz⟩, ⟨0xE2, 8, .jcc .loop⟩, ⟨0xE3, 8, .jcc .jcxz⟩ ]

/-- The matcher's constant table (R51). -/
def patternTable : List PatternRow := formPatterns ++ jumpPatterns

/-- The leading `n` bits of a byte, `b0[7:8-n]` (R52). -/
def leadingBits (b0 : Byte) (n : Nat) : Nat := b0.toNat >>> (8 - n)

/-- A pattern that is the leading bits of `b0` (R52). -/
def PatternRow.matchesByte (row : PatternRow) (b0 : Byte) : Bool :=
  row.bits = leadingBits b0 row.len

/-- The test of one prefix length: the table's class for the leading `n` bits, if there is one (R52). -/
def lookupPrefix (b0 : Byte) (n : Nat) : Option OpClass :=
  (patternTable.find? (fun row => row.len = n && row.matchesByte b0)).map (·.cls)

/-- The test of the prefix lengths `n, n-1, ..., 1` (R52). -/
def matchFrom (b0 : Byte) : Nat → Option (OpClass × Nat)
  | 0 => none
  | n + 1 =>
    match lookupPrefix b0 (n + 1) with
    | some c => some (c, n + 1)
    | none => matchFrom b0 n

/-- `match_bits(b0)`: the class of the longest pattern that is a prefix of `b0`, with its length (R52). -/
def matchBits (b0 : Byte) : Option (OpClass × Nat) := matchFrom b0 8

/-! ## Fields and tables (R53-R60) -/

/-- `B[p + k]` for an instruction at `p`. A byte that is not there is never asked for: `need` comes first. -/
def byteAt (bs : List Byte) (k : Nat) : Byte := bs.getD k 0

/-- `need(n)`: truncated unless `n` bytes from the instruction's first byte exist (R57). -/
def need (bs : List Byte) (n : Nat) (rest : Except DecodeFault Instr) : Except DecodeFault Instr :=
  if bs.length < n then .error .truncatedInstruction else rest

/-- `mod = b1[7:6]` (R53). -/
def modOf (b1 : Byte) : BitVec 2 := b1.extractLsb' 6 2

/-- `reg = b1[5:3]` (R53). -/
def regOf (b1 : Byte) : BitVec 3 := b1.extractLsb' 3 3

/-- `rm = b1[2:0]` (R53). -/
def rmOf (b1 : Byte) : BitVec 3 := b1.extractLsb' 0 3

/-- The w flag from its bit (R71). -/
def widthOf : Bool → Width
  | false => .byte
  | true => .word

/-- The rows of `REGTAB` (R54). -/
def regRow : Width → List Reg
  | .byte => [.al, .cl, .dl, .bl, .ah, .ch, .dh, .bh]
  | .word => [.ax, .cx, .dx, .bx, .sp, .bp, .si, .di]

/-- `REGTAB[w][field]` (R54); the table is total over 3-bit fields (R83). -/
def regTab (w : Width) (field : BitVec 3) : Reg := (regRow w).getD field.toNat .al

/-- `EAC[rm]` (R55); the table is total over 3-bit fields (R83). -/
def eacTab (rm : BitVec 3) : Eac :=
  [Eac.bxSi, .bxDi, .bpSi, .bpDi, .si, .di, .bp, .bx].getD rm.toNat .bxSi

/-- `disp_len(mod, rm)` (R56). -/
def dispLen (mod : BitVec 2) (rm : BitVec 3) : Nat :=
  if mod = 0b11 then 0
  else if mod = 0b00 ∧ rm = 0b110 then 2
  else mod.toNat

/-- `rm_operand(mod, rm, w, dbytes)`, the two candidate displacement bytes given (R58). -/
def rmOperand (mod : BitVec 2) (rm : BitVec 3) (w : Width) (d0 d1 : Byte) : Rm :=
  if mod = 0b11 then .reg (regTab w rm)
  else if mod = 0b00 ∧ rm = 0b110 then .direct (le16 d0 d1)
  else if mod = 0b00 then .mem (eacTab rm) .absent
  else if mod = 0b01 then .mem (eacTab rm) (.disp8 d0)
  else .mem (eacTab rm) (.disp16 (le16 d0 d1))

/-- The w flag as a number. -/
def Width.flag : Width → Nat
  | .byte => 0
  | .word => 1

/-- `k = w + 1 - s`, the number of immediate bytes (R62). -/
def immLen (s : Bool) (w : Width) : Nat := w.flag + 1 - s.toNat

/-- `imm(q, k)`: the immediate of `k` bytes at offset `q` of the instruction (R60). -/
def immAt (bs : List Byte) (q k : Nat) : Imm :=
  match k with
  | 0 => .absent
  | 1 => .imm8 (byteAt bs q)
  | _ => .imm16 (le16 (byteAt bs q) (byteAt bs (q + 1)))

/-! ## The decoder, class by class (R61-R68) -/

/-- `MOV_RM_REG`, `ADD_RM_REG`, `SUB_RM_REG` and `CMP_RM_REG` (R61). -/
def decodeRmReg (mk : Bool → Width → Rm → Reg → Instr) (bs : List Byte) : Except DecodeFault Instr :=
  let d := (byteAt bs 0).getLsbD 1
  let w := widthOf ((byteAt bs 0).getLsbD 0)
  need bs 2 <|
    let b1 := byteAt bs 1
    need bs (2 + dispLen (modOf b1) (rmOf b1)) <|
      .ok (mk d w (rmOperand (modOf b1) (rmOf b1) w (byteAt bs 2) (byteAt bs 3)) (regTab w (regOf b1)))

/-- `MOV_IMM_RM`: the reg field must be 000 (R63). -/
def decodeMovImmRm (bs : List Byte) : Except DecodeFault Instr :=
  let w := widthOf ((byteAt bs 0).getLsbD 0)
  need bs 2 <|
    let b1 := byteAt bs 1
    if regOf b1 ≠ 0b000 then .error .unknownOpcode
    else
      let nd := dispLen (modOf b1) (rmOf b1)
      let k := immLen false w
      need bs (2 + nd + k) <|
        .ok (.movImmRm w (rmOperand (modOf b1) (rmOf b1) w (byteAt bs 2) (byteAt bs 3)) (immAt bs (2 + nd) k))

/-- The operation that the reg field of `ARITH_IMM_RM` selects (R64). -/
def arithOf (reg : BitVec 3) : Option (Bool → Width → Rm → Imm → Instr) :=
  if reg = 0b000 then some .addImmRm
  else if reg = 0b101 then some .subImmRm
  else if reg = 0b111 then some .cmpImmRm
  else none

/-- `ARITH_IMM_RM` (R64). -/
def decodeArithImmRm (bs : List Byte) : Except DecodeFault Instr :=
  let s := (byteAt bs 0).getLsbD 1
  let w := widthOf ((byteAt bs 0).getLsbD 0)
  need bs 2 <|
    let b1 := byteAt bs 1
    match arithOf (regOf b1) with
    | none => .error .unknownOpcode
    | some mk =>
      let nd := dispLen (modOf b1) (rmOf b1)
      let k := immLen s w
      need bs (2 + nd + k) <|
        .ok (mk s w (rmOperand (modOf b1) (rmOf b1) w (byteAt bs 2) (byteAt bs 3)) (immAt bs (2 + nd) k))

/-- `MOV_IMM_REG`: w = bit 3, reg = bits 2..0 (R65). -/
def decodeMovImmReg (bs : List Byte) : Except DecodeFault Instr :=
  let w := widthOf ((byteAt bs 0).getLsbD 3)
  let k := immLen false w
  need bs (1 + k) <| .ok (.movImmReg w (regTab w ((byteAt bs 0).extractLsb' 0 3)) (immAt bs 1 k))

/-- `ADD_IMM_ACC`, `SUB_IMM_ACC` and `CMP_IMM_ACC` (R66). -/
def decodeImmAcc (mk : Width → Imm → Instr) (bs : List Byte) : Except DecodeFault Instr :=
  let w := widthOf ((byteAt bs 0).getLsbD 0)
  let k := immLen false w
  need bs (1 + k) <| .ok (mk w (immAt bs 1 k))

/-- `MOV_MEM_ACC` and `MOV_ACC_MEM` (R67). -/
def decodeDirectAcc (mk : Width → Word → Instr) (bs : List Byte) : Except DecodeFault Instr :=
  let w := widthOf ((byteAt bs 0).getLsbD 0)
  need bs 3 <| .ok (mk w (le16 (byteAt bs 1) (byteAt bs 2)))

/-- The instruction of a member of the jump/loop family (R68). -/
def Jcc.instr : Jcc → Byte → Instr
  | .jo => .jo | .jno => .jno | .jb => .jb | .jnb => .jnb
  | .je => .je | .jne => .jne | .jbe => .jbe | .ja => .ja
  | .js => .js | .jns => .jns | .jp => .jp | .jnp => .jnp
  | .jl => .jl | .jnl => .jnl | .jle => .jle | .jg => .jg
  | .loopnz => .loopnz | .loopz => .loopz | .loop => .loop | .jcxz => .jcxz

/-- The jump/loop family (R68). -/
def decodeJcc (j : Jcc) (bs : List Byte) : Except DecodeFault Instr :=
  need bs 2 <| .ok (j.instr (byteAt bs 1))

/-- The decoder of a class. -/
def decodeClass (c : OpClass) (bs : List Byte) : Except DecodeFault Instr :=
  match c with
  | .movRmReg => decodeRmReg .movRmReg bs
  | .movImmRm => decodeMovImmRm bs
  | .movImmReg => decodeMovImmReg bs
  | .movMemAcc => decodeDirectAcc .movMemAcc bs
  | .movAccMem => decodeDirectAcc .movAccMem bs
  | .addRmReg => decodeRmReg .addRmReg bs
  | .addImmAcc => decodeImmAcc .addImmAcc bs
  | .subRmReg => decodeRmReg .subRmReg bs
  | .subImmAcc => decodeImmAcc .subImmAcc bs
  | .cmpRmReg => decodeRmReg .cmpRmReg bs
  | .cmpImmAcc => decodeImmAcc .cmpImmAcc bs
  | .arithImmRm => decodeArithImmRm bs
  | .jcc j => decodeJcc j bs

/-- `decode(B, p)` on the bytes from `p` to the end of the buffer (R78), its checks in the order of R79.
The spec decodes only at `p < L`, so the empty list does not arise in a step; it counts as truncated
(DEDUCED, notes/assumptions/8.md). -/
def decode (bs : List Byte) : Except DecodeFault Instr :=
  match bs with
  | [] => .error .truncatedInstruction
  | b0 :: _ =>
    match matchBits b0 with
    | none => .error .unknownOpcode
    | some (c, _) => decodeClass c bs

/-! ## The instruction record (R77) -/

/-- The number of displacement bytes of an r/m operand (R56). -/
def Rm.dispBytes : Rm → Nat
  | .reg _ => 0
  | .mem _ .absent => 0
  | .mem _ (.disp8 _) => 1
  | .mem _ (.disp16 _) => 2
  | .direct _ => 2

/-- The total encoded length in bytes (R70). -/
def Instr.len : Instr → Nat
  | .movRmReg _ _ rm _ | .addRmReg _ _ rm _ | .subRmReg _ _ rm _ | .cmpRmReg _ _ rm _ => 2 + rm.dispBytes
  | .movImmRm w rm _ => 2 + rm.dispBytes + immLen false w
  | .addImmRm s w rm _ | .subImmRm s w rm _ | .cmpImmRm s w rm _ => 2 + rm.dispBytes + immLen s w
  | .movImmReg w _ _ => 1 + immLen false w
  | .addImmAcc w _ | .subImmAcc w _ | .cmpImmAcc w _ => 1 + immLen false w
  | .movMemAcc _ _ | .movAccMem _ _ => 3
  | .jo _ | .jno _ | .jb _ | .jnb _ | .je _ | .jne _ | .jbe _ | .ja _ => 2
  | .js _ | .jns _ | .jp _ | .jnp _ | .jl _ | .jnl _ | .jle _ | .jg _ => 2
  | .loopnz _ | .loopz _ | .loop _ | .jcxz _ => 2

/-- The displacement as the `i16` of R58, or none. -/
def Disp.value : Disp → Option Int
  | .absent => none
  | .disp8 b => some (signed16 (sext16 b))
  | .disp16 v => some (signed16 v)

/-- The immediate as the `i16` of R60; `none` is `ImmediateAbsent`. -/
def Imm.value : Imm → Option Int
  | .absent => none
  | .imm8 b => some (signed16 (sext16 b))
  | .imm16 v => some (signed16 v)

/-- `rel = signed16(sext_16(B[ip+1]))`, in `-128..127` (R59). -/
def relOf (b : Byte) : Int := signed16 (sext16 b)

/-- The accumulator of a width: AX or AL (R66, R67). -/
def accOf : Width → Reg
  | .byte => .al
  | .word => .ax

/-- An r/m operand in the instruction record (R58). -/
def Rm.operand : Rm → Operand
  | .reg r => .register r
  | .mem eac disp => .memory eac disp.value
  | .direct a => .memoryDirect a

/-- An immediate in the instruction record (R60). -/
def Imm.operand (i : Imm) : Operand :=
  match i.value with
  | some v => .immediate v
  | none => .immediateAbsent

/-- The destination of a register/memory <-> register form: the reg field's operand when `d = 1` (R61). -/
def dstOf (d : Bool) (rm : Rm) (reg : Reg) : Rm := if d then .reg reg else rm

/-- The source of a register/memory <-> register form (R61). -/
def srcOf (d : Bool) (rm : Rm) (reg : Reg) : Rm := if d then rm else .reg reg

/-- The record of a register/memory <-> register form. -/
def recordRmReg (cls : OpClass) (op : Op) (d : Bool) (w : Width) (rm : Rm) (reg : Reg) (len : Nat) : InstrRecord :=
  { cls, op, d := some d, w := some w, s := none,
    operands := .pair (dstOf d rm reg).operand (srcOf d rm reg).operand, len }

/-- The record of an immediate form of `ARITH_IMM_RM`. -/
def recordArithImm (op : Op) (s : Bool) (w : Width) (rm : Rm) (imm : Imm) (len : Nat) : InstrRecord :=
  { cls := .arithImmRm, op, d := none, w := some w, s := some s,
    operands := .pair rm.operand imm.operand, len }

/-- The record of a form that has a w flag and neither a d nor an s flag. -/
def recordPlain (cls : OpClass) (op : Op) (w : Width) (dst src : Operand) (len : Nat) : InstrRecord :=
  { cls, op, d := none, w := some w, s := none, operands := .pair dst src, len }

/-- The record of a jump or loop. -/
def recordJump (j : Jcc) (rel : Byte) : InstrRecord :=
  { cls := .jcc j, op := .jump j, d := none, w := none, s := none,
    operands := .displacement (relOf rel), len := 2 }

/-- The instruction record of a decoded instruction (R77). -/
def Instr.record (i : Instr) : InstrRecord :=
  match i with
  | .movRmReg d w rm reg => recordRmReg .movRmReg .mov d w rm reg i.len
  | .movImmRm w rm imm => recordPlain .movImmRm .mov w rm.operand imm.operand i.len
  | .movImmReg w reg imm => recordPlain .movImmReg .mov w (.register reg) imm.operand i.len
  | .movMemAcc w a => recordPlain .movMemAcc .mov w (.register (accOf w)) (.memoryDirect a) i.len
  | .movAccMem w a => recordPlain .movAccMem .mov w (.memoryDirect a) (.register (accOf w)) i.len
  | .addRmReg d w rm reg => recordRmReg .addRmReg .add d w rm reg i.len
  | .addImmRm s w rm imm => recordArithImm .add s w rm imm i.len
  | .addImmAcc w imm => recordPlain .addImmAcc .add w (.register (accOf w)) imm.operand i.len
  | .subRmReg d w rm reg => recordRmReg .subRmReg .sub d w rm reg i.len
  | .subImmRm s w rm imm => recordArithImm .sub s w rm imm i.len
  | .subImmAcc w imm => recordPlain .subImmAcc .sub w (.register (accOf w)) imm.operand i.len
  | .cmpRmReg d w rm reg => recordRmReg .cmpRmReg .cmp d w rm reg i.len
  | .cmpImmRm s w rm imm => recordArithImm .cmp s w rm imm i.len
  | .cmpImmAcc w imm => recordPlain .cmpImmAcc .cmp w (.register (accOf w)) imm.operand i.len
  | .jo r => recordJump .jo r
  | .jno r => recordJump .jno r
  | .jb r => recordJump .jb r
  | .jnb r => recordJump .jnb r
  | .je r => recordJump .je r
  | .jne r => recordJump .jne r
  | .jbe r => recordJump .jbe r
  | .ja r => recordJump .ja r
  | .js r => recordJump .js r
  | .jns r => recordJump .jns r
  | .jp r => recordJump .jp r
  | .jnp r => recordJump .jnp r
  | .jl r => recordJump .jl r
  | .jnl r => recordJump .jnl r
  | .jle r => recordJump .jle r
  | .jg r => recordJump .jg r
  | .loopnz r => recordJump .loopnz r
  | .loopz r => recordJump .loopz r
  | .loop r => recordJump .loop r
  | .jcxz r => recordJump .jcxz r

/-- The mnemonic of a member of the jump/loop family (R68, R81). -/
def Jcc.mnemonic : Jcc → String
  | .jo => "jo" | .jno => "jno" | .jb => "jb" | .jnb => "jnb"
  | .je => "je" | .jne => "jne" | .jbe => "jbe" | .ja => "ja"
  | .js => "js" | .jns => "jns" | .jp => "jp" | .jnp => "jnp"
  | .jl => "jl" | .jnl => "jnl" | .jle => "jle" | .jg => "jg"
  | .loopnz => "loopnz" | .loopz => "loopz" | .loop => "loop" | .jcxz => "jcxz"

/-- The mnemonic that an instruction record gives (R81): the 24 of the subset. -/
def Op.mnemonic : Op → String
  | .mov => "mov" | .add => "add" | .sub => "sub" | .cmp => "cmp"
  | .jump j => j.mnemonic

/-! ## The encoder -/

/-- The 3-bit field of a register name: its column in `REGTAB` (R54). -/
def Reg.field : Reg → BitVec 3
  | .al | .ax => 0b000
  | .cl | .cx => 0b001
  | .dl | .dx => 0b010
  | .bl | .bx => 0b011
  | .ah | .sp => 0b100
  | .ch | .bp => 0b101
  | .dh | .si => 0b110
  | .bh | .di => 0b111

/-- The rm field of an EAC form (R55). -/
def Eac.field : Eac → BitVec 3
  | .bxSi => 0b000
  | .bxDi => 0b001
  | .bpSi => 0b010
  | .bpDi => 0b011
  | .si => 0b100
  | .di => 0b101
  | .bp => 0b110
  | .bx => 0b111

/-- The mod field of an r/m operand (R56, R58). -/
def Rm.mod : Rm → BitVec 2
  | .reg _ => 0b11
  | .direct _ => 0b00
  | .mem _ .absent => 0b00
  | .mem _ (.disp8 _) => 0b01
  | .mem _ (.disp16 _) => 0b10

/-- The rm field of an r/m operand (R54, R55, R56). -/
def Rm.field : Rm → BitVec 3
  | .reg r => r.field
  | .direct _ => 0b110
  | .mem eac _ => eac.field

/-- The two bytes of a word, low byte first (R37). -/
def wordBytes (v : Word) : List Byte := [lowByte v, highByte v]

/-- The displacement bytes of an r/m operand. -/
def Rm.bytes : Rm → List Byte
  | .reg _ => []
  | .mem _ .absent => []
  | .mem _ (.disp8 b) => [b]
  | .mem _ (.disp16 v) => wordBytes v
  | .direct a => wordBytes a

/-- The bytes of an immediate. -/
def Imm.bytes : Imm → List Byte
  | .absent => []
  | .imm8 b => [b]
  | .imm16 v => wordBytes v

/-- The bit of the w flag. -/
def Width.bit : Width → BitVec 1
  | .byte => 0
  | .word => 1

/-- The mode byte of an r/m operand beside a reg field (R53). -/
def modeByte (rm : Rm) (reg : BitVec 3) : Byte := rm.mod ++ reg ++ rm.field

/-- The bytes of a register/memory <-> register form: `ppppppdw mod:2 reg:3 rm:3 [disp]`. -/
def encodeRmReg (pattern : BitVec 6) (d : Bool) (w : Width) (rm : Rm) (reg : Reg) : List Byte :=
  (pattern ++ BitVec.ofBool d ++ w.bit) :: modeByte rm reg.field :: rm.bytes

/-- The bytes of an `ARITH_IMM_RM` form: `100000sw mod:2 reg:3 rm:3 [disp] imm(w+1-s)`. -/
def encodeArithImm (sel : BitVec 3) (s : Bool) (w : Width) (rm : Rm) (imm : Imm) : List Byte :=
  (0b100000#6 ++ BitVec.ofBool s ++ w.bit) :: modeByte rm sel :: (rm.bytes ++ imm.bytes)

/-- The opcode byte of a member of the jump/loop family (R68). -/
def Jcc.opcode : Jcc → Byte
  | .jo => 0x70 | .jno => 0x71 | .jb => 0x72 | .jnb => 0x73
  | .je => 0x74 | .jne => 0x75 | .jbe => 0x76 | .ja => 0x77
  | .js => 0x78 | .jns => 0x79 | .jp => 0x7A | .jnp => 0x7B
  | .jl => 0x7C | .jnl => 0x7D | .jle => 0x7E | .jg => 0x7F
  | .loopnz => 0xE0 | .loopz => 0xE1 | .loop => 0xE2 | .jcxz => 0xE3

/-- The bytes of a well-formed instruction, by the "encoding" column of spec/opcode_table.json. -/
def encode : Instr → List Byte
  | .movRmReg d w rm reg => encodeRmReg 0b100010 d w rm reg
  | .movImmRm w rm imm => (0b1100011#7 ++ w.bit) :: modeByte rm 0b000 :: (rm.bytes ++ imm.bytes)
  | .movImmReg w reg imm => (0b1011#4 ++ w.bit ++ reg.field) :: imm.bytes
  | .movMemAcc w a => (0b1010000#7 ++ w.bit) :: wordBytes a
  | .movAccMem w a => (0b1010001#7 ++ w.bit) :: wordBytes a
  | .addRmReg d w rm reg => encodeRmReg 0b000000 d w rm reg
  | .addImmRm s w rm imm => encodeArithImm 0b000 s w rm imm
  | .addImmAcc w imm => (0b0000010#7 ++ w.bit) :: imm.bytes
  | .subRmReg d w rm reg => encodeRmReg 0b001010 d w rm reg
  | .subImmRm s w rm imm => encodeArithImm 0b101 s w rm imm
  | .subImmAcc w imm => (0b0010110#7 ++ w.bit) :: imm.bytes
  | .cmpRmReg d w rm reg => encodeRmReg 0b001110 d w rm reg
  | .cmpImmRm s w rm imm => encodeArithImm 0b111 s w rm imm
  | .cmpImmAcc w imm => (0b0011110#7 ++ w.bit) :: imm.bytes
  | .jo r => [Jcc.opcode .jo, r]
  | .jno r => [Jcc.opcode .jno, r]
  | .jb r => [Jcc.opcode .jb, r]
  | .jnb r => [Jcc.opcode .jnb, r]
  | .je r => [Jcc.opcode .je, r]
  | .jne r => [Jcc.opcode .jne, r]
  | .jbe r => [Jcc.opcode .jbe, r]
  | .ja r => [Jcc.opcode .ja, r]
  | .js r => [Jcc.opcode .js, r]
  | .jns r => [Jcc.opcode .jns, r]
  | .jp r => [Jcc.opcode .jp, r]
  | .jnp r => [Jcc.opcode .jnp, r]
  | .jl r => [Jcc.opcode .jl, r]
  | .jnl r => [Jcc.opcode .jnl, r]
  | .jle r => [Jcc.opcode .jle, r]
  | .jg r => [Jcc.opcode .jg, r]
  | .loopnz r => [Jcc.opcode .loopnz, r]
  | .loopz r => [Jcc.opcode .loopz, r]
  | .loop r => [Jcc.opcode .loop, r]
  | .jcxz r => [Jcc.opcode .jcxz, r]

/-! ## The opcode table's words -/

/-- The longest instruction, in bytes (R49, R70). -/
def maxInstrLen : Nat := 6

/-- The bytes of an instruction whose first `nbits` bits are `w` as spec/opcode_table.json numbers them, all
later bits zero, up to the longest instruction. The table's `match_order` puts the first byte in the most
significant bits ("b0 = bits 15:8, b1 = bits 7:0"). DEDUCED, notes/assumptions/5.md. -/
def tableBytes (nbits w : Nat) : List Byte :=
  (List.range (nbits / 8)).reverse.map (fun k => BitVec.ofNat 8 (w >>> (8 * k)))
    ++ List.replicate (maxInstrLen - nbits / 8) 0

/-- The instruction the decoder reads from a word of the opcode table. -/
def decodeTableWord (nbits w : Nat) : Option Instr :=
  match decode (tableBytes nbits w) with
  | .ok i => some i
  | .error _ => none

end Sys2Proof
end

