-- ==== Sys2Proof/Machine/State.lean ====
section
/-! DEFINITION. The machine's state (spec/10_state.md rules R11-R36), the reasons a step can stop, and the
state right after reset. -/

namespace Sys2Proof.Machine

/-- The eight 16-bit backing words of the register file (R13), under the spec's names: `A`, `C`, `D` and `B`
double as byte pairs; `SP`, `BP`, `SI` and `DI` are single-purpose. -/
structure RegFile where
  /-- `A`: AX, with AL and AH. -/
  a : Word
  /-- `C`: CX, with CL and CH. -/
  c : Word
  /-- `D`: DX, with DL and DH. -/
  d : Word
  /-- `B`: BX, with BL and BH. -/
  b : Word
  /-- `SP`. -/
  sp : Word
  /-- `BP`. -/
  bp : Word
  /-- `SI`. -/
  si : Word
  /-- `DI`. -/
  di : Word
  deriving DecidableEq, Repr

/-- The names of the backing words (R13). -/
inductive Store where
  | a | c | d | b | sp | bp | si | di
  deriving DecidableEq, Repr

/-- Which bits of its backing word a register name stands for (R14). -/
inductive Part where
  | whole | low | high
  deriving DecidableEq, Repr

/-- The flags (R23). -/
inductive Flag where
  | c | z | s | p | o
  deriving DecidableEq, Repr

/-- The fault kinds (R141). They are values of the FAULT record, which a faulting step writes (R146). Kinds 3 and 4
are kept although nothing raises them: DESIGN CHOICE, notes/assumptions/11.md. -/
inductive FaultKind where
  /-- Code 1: the decoder, on leading bytes outside the subset (R142). -/
  | unknownOpcode
  /-- Code 2: the decoder, when the buffer ends inside the instruction (R143). -/
  | truncatedInstruction
  /-- Code 3: no input raises it (R144). -/
  | invalidOperandIndex
  /-- Code 4: no input raises it (R145). -/
  | unsupportedAddressingMode
  /-- Code 5: executing an instruction with a memory operand (R92, R147). -/
  | memoryOperandUnsupported
  /-- Code 6: executing an `ARITH_IMM_RM` form without immediate bytes (R93, R148). -/
  | immediateAbsent
  /-- Code 7: a taken `jne` whose target is outside `0..65535` (R120, R149). -/
  | ipOutOfRange
  deriving DecidableEq, Repr

/-- `STATUS` (R31): `HALT` and `FAULT` are final. -/
inductive Status where
  | run | halt | fault
  deriving DecidableEq, Repr

/-- The `FAULT` record `(kind, at)` (R32), valid only when `STATUS = FAULT`. -/
structure FaultRecord where
  /-- The fault kind. -/
  kind : FaultKind
  /-- `at`: the offset of the instruction that faulted. -/
  atIp : Word
  deriving DecidableEq, Repr

/-- A destination register's name with its value before and after (R95). -/
structure RegChange where
  reg : Reg
  before : Word
  after : Word
  deriving DecidableEq, Repr

/-- `F` before and after (R95). -/
structure FlagChange where
  before : Byte
  after : Byte
  deriving DecidableEq, Repr

/-- The "resulting values" of an executed instruction (R95). -/
structure ResultValues where
  /-- The destination register, if one was written. -/
  dst : Option RegChange
  /-- The flags register, if flags were computed. -/
  flags : Option FlagChange
  /-- `ip` after the step. -/
  ipAfter : Word
  deriving DecidableEq, Repr

/-- The trace record that a committed step emits to the external renderer (R95). -/
structure TraceRecord where
  /-- `at`: the value of `ip` at the start of the step. -/
  atIp : Word
  /-- The instruction record. -/
  instr : InstrRecord
  /-- The numeric address of the memory operand, if there is one; the spec says it may be reported (R84).
  DESIGN CHOICE, notes/assumptions/7.md. -/
  ea : Option Word
  /-- The resulting values, in `EXECUTE` mode. -/
  values : Option ResultValues
  deriving DecidableEq, Repr

/-- The state: the elements of R11, the parameters of the run (R6; no step writes them), and the trace
records the run has emitted (R95), which are the core's output and which no step reads. -/
structure State where
  /-- The register file (R13). -/
  regs : RegFile
  /-- The flags register `F`, 8 bits (R22, R23). -/
  flags : Byte
  /-- The instruction pointer `ip`, 16 bits (R28). -/
  ip : Word
  /-- `STATUS` (R31). -/
  status : Status
  /-- `FAULT` (R32). -/
  faultRec : FaultRecord
  /-- `L`, `B`, `EXEC_MODE` and `BYTE_FLAGS_MODE` (R6, R157). DESIGN CHOICE, notes/assumptions/9.md. -/
  params : Params
  /-- The emitted trace records, oldest first (R95). DESIGN CHOICE, notes/assumptions/7.md. -/
  trace : List TraceRecord
  deriving DecidableEq, Repr

/-- Why the machine has no next state. Safe: no rule gives the machine a step here. The faults of the spec are next
states (`State.takeFault`). DEDUCED, notes/assumptions/1.md. -/
inductive Fault where
  /-- Raised by `step` when `STATUS = HALT`: no step is enabled (R85). Safe. -/
  | halted
  /-- Raised by `step` when `STATUS = FAULT`: no step is enabled (R85). Safe. -/
  | faulted
  deriving DecidableEq, Repr

/-- What the model refuses. -/
inductive Refusal where
  /-- The host's name for an arm of `exec` without a meaning; no arm of this model raises it. Safe. -/
  | notModelled (mnemonic : String)
  /-- Raised by `resetRun` for a buffer longer than 65535 bytes, which the spec refuses (R160). Safe. -/
  | bufferTooLong
  deriving DecidableEq, Repr

/-- Every backing word `0x0000` (R36). -/
def RegFile.zero : RegFile :=
  { a := 0, c := 0, d := 0, b := 0, sp := 0, bp := 0, si := 0, di := 0 }

/-- The parameters before any buffer is supplied: an empty buffer and the default modes of R6.
DESIGN CHOICE, notes/assumptions/3.md. -/
def Params.initial : Params :=
  { len := 0, buf := [], execMode := .execute, byteFlags := .narrow }

/-- The content of `FAULT` before any fault: the spec leaves it unspecified (R36, I13).
DESIGN CHOICE, notes/assumptions/2.md. -/
def FaultRecord.initial : FaultRecord := { kind := .unknownOpcode, atIp := 0 }

/-- The machine right after reset (R36, R157). -/
def State.reset : State :=
  { regs := RegFile.zero, flags := 0, ip := 0, status := .run, faultRec := FaultRecord.initial,
    params := Params.initial, trace := [] }

end Sys2Proof.Machine
end

