-- ==== Sys2Proof/Machine/Ops.lean ====
section
/-! DEFINITION. The named operations over the program buffer, the register file, `ip` and `STATUS`: the
ports of spec/10_state.md R18, fetch, the taking of a fault (R146), the halt (R87) and reset (R157).
There is no trap return: FAULT is final and only reset starts a new run (R152). -/

namespace Sys2Proof.Machine

/-! ## The program buffer (spec/20_memory.md) -/

/-- The byte at an offset of the buffer. -/
def Memory.read : Memory → Nat → Byte
  | [], _ => Config.unlisted
  | (k, v) :: rest, a => if k = a then v else Memory.read rest a

/-- One cell, or nothing where the value is what an unlisted offset reads as. -/
def Memory.cell (a : Nat) (v : Byte) : Memory :=
  if v = Config.unlisted then [] else [(a, v)]

/-- The buffer with one byte placed, in canonical form. Only the supply of a buffer uses it: no
instruction writes the buffer (R48). -/
def Memory.write : Memory → Nat → Byte → Memory
  | [], a, v => Memory.cell a v
  | (k, x) :: rest, a, v =>
    if a < k then Memory.cell a v ++ (k, x) :: rest
    else if a = k then Memory.cell a v ++ rest
    else (k, x) :: Memory.write rest a v

/-- Consecutive bytes placed from an offset upward. -/
def Memory.place (m : Memory) (a : Nat) : List Byte → Memory
  | [] => m
  | b :: bs => Memory.place (Memory.write m a b) (a + 1) bs

/-- The canonical form: offsets strictly rising, and no entry equal to what an unlisted offset reads as. -/
abbrev Memory.wf (m : Memory) : Prop :=
  m.Pairwise (fun x y => x.1 < y.1) ∧ ∀ x ∈ m, x.2 ≠ Config.unlisted

/-- `Fetch(p)` (R8): the byte `B[p]`, for `p < L`. No other offset exists (R34). -/
def State.fetch (s : State) (p : Nat) : Option Byte :=
  if p < s.params.len.val then some (Memory.read s.params.buf p) else none

/-- The bytes from `ip` to the end of the buffer, at most as many as the longest instruction has. A need
for more is a need past the buffer's end (R57), and the decoder reads only its instruction's bytes (R41).
DEDUCED, notes/assumptions/8.md. -/
def State.window (s : State) : List Byte :=
  (List.range (min maxInstrLen (s.params.len.val - s.ip.toNat))).map
    (fun k => Memory.read s.params.buf (s.ip.toNat + k))

/-! ## The register file (R12-R21) -/

/-- The backing word of a register name (R14). -/
def regStore : Reg → Store
  | .al | .ah | .ax => .a
  | .cl | .ch | .cx => .c
  | .dl | .dh | .dx => .d
  | .bl | .bh | .bx => .b
  | .sp => .sp
  | .bp => .bp
  | .si => .si
  | .di => .di

/-- The bits of its backing word that a register name stands for (R14). -/
def regPart : Reg → Part
  | .al | .cl | .dl | .bl => .low
  | .ah | .ch | .dh | .bh => .high
  | .ax | .cx | .dx | .bx | .sp | .bp | .si | .di => .whole

/-- A backing word. -/
def RegFile.read (rf : RegFile) : Store → Word
  | .a => rf.a
  | .c => rf.c
  | .d => rf.d
  | .b => rf.b
  | .sp => rf.sp
  | .bp => rf.bp
  | .si => rf.si
  | .di => rf.di

/-- The register file with one backing word replaced. -/
def RegFile.write (rf : RegFile) (w : Store) (v : Word) : RegFile :=
  match w with
  | .a => { rf with a := v }
  | .c => { rf with c := v }
  | .d => { rf with d := v }
  | .b => { rf with b := v }
  | .sp => { rf with sp := v }
  | .bp => { rf with bp := v }
  | .si => { rf with si := v }
  | .di => { rf with di := v }

/-- What a register name shows of its backing word (R19). -/
def partOf (p : Part) (v : Word) : Word :=
  match p with
  | .whole => v
  | .low => zext16 (lowByte v)
  | .high => zext16 (highByte v)

/-- The backing word after a write through a register name; a byte name takes `v[7:0]` (R20). -/
def mergePart (p : Part) (old v : Word) : Word :=
  match p with
  | .whole => v
  | .low => le16 (lowByte v) (highByte old)
  | .high => le16 (lowByte old) (lowByte v)

/-- `get(r)` (R19). -/
def State.get (s : State) (r : Reg) : Word := partOf (regPart r) (s.regs.read (regStore r))

/-- `set(r, v)` (R20). -/
def State.set (s : State) (r : Reg) (v : Word) : State :=
  { s with regs := s.regs.write (regStore r) (mergePart (regPart r) (s.regs.read (regStore r)) v) }

/-! ## The instruction pointer -/

/-- `move_ip_by(n)`: adds the signed integer `n` to `ip` (R30). The range check of a jump comes before it
(R120), and a sequential advance needs none (R89). DESIGN CHOICE, notes/assumptions/6.md: where the sum is
outside `0..65535`, which no step reaches, it is taken mod 65536. -/
def State.moveIpBy (s : State) (n : Int) : State :=
  { s with ip := unsigned16 ((s.ip.toNat : Int) + n) }

/-- `t = ip_next + rel` as an integer, with `ip_next = ip + 2` (R120). -/
def State.jumpTarget (s : State) (rel : Int) : Int := (s.ip.toNat : Int) + 2 + rel

/-! ## Faults, halt and reset -/

/-- The fault kind of a decode failure (R141). -/
def decodeFaultKind : DecodeFault → FaultKind
  | .unknownOpcode => .unknownOpcode
  | .truncatedInstruction => .truncatedInstruction

/-- The numeric code of a fault kind (R141). -/
def FaultKind.code : FaultKind → Nat
  | .unknownOpcode => 1
  | .truncatedInstruction => 2
  | .invalidOperandIndex => 3
  | .unsupportedAddressingMode => 4
  | .memoryOperandUnsupported => 5
  | .immediateAbsent => 6
  | .ipOutOfRange => 7

/-- Taking a fault: `STATUS <- FAULT`, `FAULT <- (kind, ip)`, and nothing else (R88, R146). -/
def State.takeFault (s : State) (k : FaultKind) : State :=
  { s with status := .fault, faultRec := { kind := k, atIp := s.ip } }

/-- The end of the run: `STATUS <- HALT`, and nothing else (R87). -/
def State.takeHalt (s : State) : State := { s with status := .halt }

/-- The reset input (R157): it is accepted in any `STATUS`, writes every state element to its reset value,
and fixes the buffer and the modes of the run. A buffer over 65535 bytes is refused, not truncated (R160). It is a
function beside the step: DESIGN CHOICE, notes/assumptions/12.md. -/
def resetRun (_s : State) (bytes : List Byte) (execMode : ExecMode) (byteFlags : ByteFlagsMode) :
    Host.Outcome State Fault Refusal :=
  if h : bytes.length ≤ Config.maxLength then
    .next { State.reset with
      params := { len := ⟨bytes.length, Nat.lt_succ_of_le h⟩, buf := Memory.place [] 0 bytes, execMode, byteFlags } }
  else .refused .bufferTooLong

/-- The state with bytes placed where the next instruction is fetched, so that the next step fetches them:
`STATUS` runs and the buffer reaches at least to their end. Where they do not fit between `ip` and the
greatest length, they are placed at offset 0 and `ip` is set to it. DESIGN CHOICE, notes/assumptions/10.md. -/
def State.withCode (s : State) (bytes : List Byte) : State :=
  let base := if s.ip.toNat + bytes.length ≤ Config.maxLength then s.ip.toNat else 0
  { s with
    ip := BitVec.ofNat 16 base
    status := .run
    params := { s.params with
      len := ⟨min Config.maxLength (max s.params.len.val (base + bytes.length)),
        Nat.lt_succ_of_le (Nat.min_le_left _ _)⟩
      buf := Memory.place s.params.buf base bytes } }

end Sys2Proof.Machine
end

