-- ==== Sys2Proof/Machine/Flags.lean ====
section
/-! DEFINITION. The flags register (spec/10_state.md R22-R27) and the arithmetic and flag-computation unit
(spec/42_arithmetic.md R104-R107). -/

namespace Sys2Proof.Machine

/-- The bit of a flag in `F` (R23). -/
def flagBit : Flag → Nat
  | .c => 0
  | .z => 1
  | .s => 2
  | .p => 3
  | .o => 4

/-- `get_flag(f)` (R26). -/
def State.getFlag (s : State) (f : Flag) : Bool := s.flags.getLsbD (flagBit f)

/-- `F` with one flag given the value `v`. -/
def putFlag (F : Byte) (f : Flag) (v : Bool) : Byte :=
  if v then F ||| BitVec.twoPow 8 (flagBit f) else F &&& ~~~(BitVec.twoPow 8 (flagBit f))

/-- `F` after `set_flags_from_result(res)`: Z, S and P are written and the rest stays (R105). -/
def flagsFrom (F : Byte) (res : Int) : Byte :=
  putFlag (putFlag (putFlag F .z (decide (res = 0))) .s (decide (res < 0))) .p (decide (res % 2 = 0))

/-- `set_flags_from_result(res)` (R105). -/
def State.setFlagsFromResult (s : State) (res : Int) : State :=
  { s with flags := flagsFrom s.flags res }

/-- The operations of the unit; CMP uses SUB (R104). -/
inductive AluOp where
  | add | sub
  deriving DecidableEq, Repr

/-- `alu_w(op, a, b)`, mod 65536 (R104). -/
def aluWord (op : AluOp) (a b : Word) : Word :=
  match op with
  | .add => a + b
  | .sub => a - b

/-- `r8`, mod 256 (R106). -/
def aluByte (op : AluOp) (a b : Word) : Byte :=
  match op with
  | .add => lowByte a + lowByte b
  | .sub => lowByte a - lowByte b

/-- The stored result of width `w` (R104, R106). -/
def aluResult (op : AluOp) (w : Width) (a b : Word) : Word :=
  match w with
  | .word => aluWord op a b
  | .byte => zext16 (aluByte op a b)

/-- The `i16` passed to `set_flags_from_result` (R104, R106). -/
def flagInput (mode : ByteFlagsMode) (op : AluOp) (w : Width) (a b : Word) : Int :=
  match w, mode with
  | .word, _ => signed16 (aluWord op a b)
  | .byte, .narrow => signed16 (sext16 (aluByte op a b))
  | .byte, .wide16 => signed16 (aluWord op a b)

end Sys2Proof.Machine
end

