-- ==== Sys2Proof/Machine/Operands.lean ====
section
/-! DEFINITION. Operand values (spec/40_execution_cycle.md R92, R93, R97) and the numeric effective address
of a memory operand (spec/30_encoding.md R84). -/

namespace Sys2Proof.Machine

/-- The base register of an EAC form (R55). -/
def eacBase : Eac → Option Reg
  | .bxSi | .bxDi | .bx => some .bx
  | .bpSi | .bpDi | .bp => some .bp
  | .si | .di => none

/-- The index register of an EAC form (R55). -/
def eacIndex : Eac → Option Reg
  | .bxSi | .bpSi | .si => some .si
  | .bxDi | .bpDi | .di => some .di
  | .bp | .bx => none

/-- The value of a register that a form may lack: 0 where it does (R84). -/
def State.getOrZero (s : State) : Option Reg → Word
  | some r => s.get r
  | none => 0

/-- `ea` of `Memory(eac, disp)`, mod 65536 (R84). -/
def State.effectiveAddress (s : State) (eac : Eac) (disp : Option Int) : Word :=
  s.getOrZero (eacBase eac) + s.getOrZero (eacIndex eac) + unsigned16 (disp.getD 0)

/-- The numeric address of an operand of the instruction record, if it is a memory operand (R84). -/
def State.operandAddress (s : State) : Operand → Option Word
  | .memory eac disp => some (s.effectiveAddress eac disp)
  | .memoryDirect a => some a
  | .register _ => none
  | .immediate _ => none
  | .immediateAbsent => none

/-- The numeric address a trace record reports: that of the one memory operand an instruction can have. -/
def State.reportedAddress (s : State) : Operands → Option Word
  | .pair dst src => (s.operandAddress dst).or (s.operandAddress src)
  | .displacement _ => none

/-- A source operand: register or memory, or an immediate. -/
inductive Source where
  | rm (x : Rm)
  | imm (i : Imm)
  deriving DecidableEq, Repr

/-- `val(src)` (R97). An absent immediate and a memory operand are not executed (R92, R93). Where an ill-formed term
puts an absent immediate elsewhere, it faults too: DESIGN CHOICE, notes/assumptions/13.md. -/
def State.sourceValue (s : State) : Source → Except FaultKind Word
  | .rm (.reg r) => .ok (s.get r)
  | .rm (.mem _ _) => .error .memoryOperandUnsupported
  | .rm (.direct _) => .error .memoryOperandUnsupported
  | .imm i =>
    match i.value with
    | some v => .ok (unsigned16 v)
    | none => .error .immediateAbsent

/-- The destination register. A memory destination is not executed (R92). -/
def destReg : Rm → Except FaultKind Reg
  | .reg r => .ok r
  | .mem _ _ => .error .memoryOperandUnsupported
  | .direct _ => .error .memoryOperandUnsupported

/-- The checks of R92 and R93 and then the operands: the destination register and `val(src)`. The source
comes first, so that an absent immediate is reported before a memory destination (R93, R150). -/
def State.operands (s : State) (dst : Rm) (src : Source) : Except FaultKind (Reg × Word) :=
  match s.sourceValue src with
  | .error k => .error k
  | .ok v =>
    match destReg dst with
    | .error k => .error k
    | .ok r => .ok (r, v)

end Sys2Proof.Machine
end

