-- ==== Sys2Proof/Machine/Cycle.lean ====
section
/-! DEFINITION. One step of the execution cycle, in the two phases of spec/00_scope.md R9: the effects are
computed from the state at the start of the step, then written at once (spec/40_execution_cycle.md R89-R95). -/

namespace Sys2Proof.Machine

/-- What phase one of an instruction asks phase two to write, beside the sequential advance of `ip`. -/
structure Effects where
  /-- The destination register and the value written through `set`. -/
  reg : Option (Reg × Word) := none
  /-- The argument of `set_flags_from_result`. -/
  flagInput : Option Int := none
  /-- The displacement of a taken jump. -/
  jump : Option Int := none
  deriving DecidableEq, Repr

/-- The write of the destination register, if there is one. -/
def State.writeReg (s : State) : Option (Reg × Word) → State
  | some (r, v) => s.set r v
  | none => s

/-- The write of Z, S and P, if flags were computed. -/
def State.writeFlags (s : State) : Option Int → State
  | some res => s.setFlagsFromResult res
  | none => s

/-- The second move of `ip`, if a jump was taken (R9, R120). -/
def State.writeJump (s : State) : Option Int → State
  | some rel => s.moveIpBy rel
  | none => s

/-- Phase two on the architectural state: `ip` takes the sequential value and then a taken jump's target,
and the destination register and the flags are written (R9, R89, R94). -/
def State.apply (s : State) (len : Nat) (e : Effects) : State :=
  (((s.moveIpBy len).writeJump e.jump).writeReg e.reg).writeFlags e.flagInput

/-- The "resulting values" of R95, from the states before and after phase two. -/
def resultValues (before after : State) (e : Effects) : ResultValues :=
  { dst := e.reg.map (fun x => { reg := x.1, before := before.get x.1, after := after.get x.1 })
    flags := e.flagInput.map (fun _ => { before := before.flags, after := after.flags })
    ipAfter := after.ip }

/-- The trace record of a committed step that began in `s` (R95). -/
def traceRecord (s : State) (r : InstrRecord) (values : Option ResultValues) : TraceRecord :=
  { atIp := s.ip, instr := r, ea := s.reportedAddress r.operands, values }

/-- The emission of a trace record (R95). -/
def State.emit (s : State) (t : TraceRecord) : State := { s with trace := s.trace ++ [t] }

/-- Commit in `EXECUTE` mode (R94). `STATUS` stays as it is. -/
def State.commit (s : State) (i : Instr) (e : Effects) : State :=
  (s.apply i.len e).emit (traceRecord s i.record (some (resultValues s (s.apply i.len e) e)))

/-- A successful decode in `DECODE_ONLY` mode: `ip <- ip_next` and a trace record, nothing else (R90). -/
def State.list (s : State) (i : Instr) : State :=
  (s.moveIpBy i.len).emit (traceRecord s i.record none)

/-- A step on a decoded instruction whose phase one is given: listed in `DECODE_ONLY` (R90); in `EXECUTE` a
fault is taken, or the effects are committed (R91-R94, R146). -/
def perform (i : Instr) (s : State) (phaseOne : Except FaultKind Effects) : Host.Outcome State Fault Refusal :=
  match s.params.execMode with
  | .decodeOnly => .next (s.list i)
  | .execute =>
    match phaseOne with
    | .error k => .next (s.takeFault k)
    | .ok e => .next (s.commit i e)

/-- MOV: `x[dst] <- val(src)` (R98). -/
def State.movEffects (s : State) (dst : Rm) (src : Source) : Except FaultKind Effects :=
  match s.operands dst src with
  | .error k => .error k
  | .ok (r, v) => .ok { reg := some (r, v) }

/-- ADD and SUB: `x[dst] <- r; set_flags_from_result(fi)` (R104, R106, R108-R113). -/
def State.aluEffects (s : State) (op : AluOp) (w : Width) (dst : Rm) (src : Source) : Except FaultKind Effects :=
  match s.operands dst src with
  | .error k => .error k
  | .ok (r, v) => .ok { reg := some (r, aluResult op w (s.get r) v),
                        flagInput := some (flagInput s.params.byteFlags op w (s.get r) v) }

/-- CMP: as SUB with the result discarded, so only the flags are written (R114-R116). -/
def State.cmpEffects (s : State) (w : Width) (dst : Rm) (src : Source) : Except FaultKind Effects :=
  match s.operands dst src with
  | .error k => .error k
  | .ok (r, v) => .ok { flagInput := some (flagInput s.params.byteFlags .sub w (s.get r) v) }

/-- A member of the jump/loop family that does not jump writes `ip <- ip_next` and nothing else (R119). -/
def noEffects : Except FaultKind Effects := .ok {}

/-- A taken jump, after the range check of its target (R120). -/
def State.jumpEffects (s : State) (rel : Int) : Except FaultKind Effects :=
  if s.jumpTarget rel < 0 ∨ 65535 < s.jumpTarget rel then .error .ipOutOfRange
  else .ok { jump := some rel }

end Sys2Proof.Machine
end

