-- ==== Sys2Proof/Machine/Arith.lean ====
section
/-! DEFINITION. The ADD, SUB and CMP family (spec/42_arithmetic.md R108-R116). -/

namespace Sys2Proof.Machine

/-- `ADD r/m, reg` and `ADD reg, r/m` (R108). -/
def execAddRmReg (d : Bool) (w : Width) (rm : Rm) (reg : Reg) (s : State) : Host.Outcome State Fault Refusal :=
  perform (.addRmReg d w rm reg) s (s.aluEffects .add w (dstOf d rm reg) (.rm (srcOf d rm reg)))

/-- `ADD r/m, imm` (R109). -/
def execAddImmRm (sx : Bool) (w : Width) (rm : Rm) (imm : Imm) (s : State) : Host.Outcome State Fault Refusal :=
  perform (.addImmRm sx w rm imm) s (s.aluEffects .add w rm (.imm imm))

/-- `ADD AL/AX, imm` (R110). -/
def execAddImmAcc (w : Width) (imm : Imm) (s : State) : Host.Outcome State Fault Refusal :=
  perform (.addImmAcc w imm) s (s.aluEffects .add w (.reg (accOf w)) (.imm imm))

/-- `SUB r/m, reg` and `SUB reg, r/m` (R111). -/
def execSubRmReg (d : Bool) (w : Width) (rm : Rm) (reg : Reg) (s : State) : Host.Outcome State Fault Refusal :=
  perform (.subRmReg d w rm reg) s (s.aluEffects .sub w (dstOf d rm reg) (.rm (srcOf d rm reg)))

/-- `SUB r/m, imm` (R112). -/
def execSubImmRm (sx : Bool) (w : Width) (rm : Rm) (imm : Imm) (s : State) : Host.Outcome State Fault Refusal :=
  perform (.subImmRm sx w rm imm) s (s.aluEffects .sub w rm (.imm imm))

/-- `SUB AL/AX, imm` (R113). -/
def execSubImmAcc (w : Width) (imm : Imm) (s : State) : Host.Outcome State Fault Refusal :=
  perform (.subImmAcc w imm) s (s.aluEffects .sub w (.reg (accOf w)) (.imm imm))

/-- `CMP r/m, reg` and `CMP reg, r/m` (R114). -/
def execCmpRmReg (d : Bool) (w : Width) (rm : Rm) (reg : Reg) (s : State) : Host.Outcome State Fault Refusal :=
  perform (.cmpRmReg d w rm reg) s (s.cmpEffects w (dstOf d rm reg) (.rm (srcOf d rm reg)))

/-- `CMP r/m, imm` (R115). -/
def execCmpImmRm (sx : Bool) (w : Width) (rm : Rm) (imm : Imm) (s : State) : Host.Outcome State Fault Refusal :=
  perform (.cmpImmRm sx w rm imm) s (s.cmpEffects w rm (.imm imm))

/-- `CMP AL/AX, imm` (R116). -/
def execCmpImmAcc (w : Width) (imm : Imm) (s : State) : Host.Outcome State Fault Refusal :=
  perform (.cmpImmAcc w imm) s (s.cmpEffects w (.reg (accOf w)) (.imm imm))

end Sys2Proof.Machine
end

