-- ==== Sys2Proof/Machine/Jump.lean ====
section
/-! DEFINITION. The conditional jumps and loops (spec/43_control_transfer.md R119-R140). Only `jne` transfers
control. -/

namespace Sys2Proof.Machine

/-- `jo rel8` (R121): never taken. -/
def execJo (rel : Byte) (s : State) : Host.Outcome State Fault Refusal := perform (.jo rel) s noEffects

/-- `jno rel8` (R122): never taken. -/
def execJno (rel : Byte) (s : State) : Host.Outcome State Fault Refusal := perform (.jno rel) s noEffects

/-- `jb rel8` (R123): never taken. -/
def execJb (rel : Byte) (s : State) : Host.Outcome State Fault Refusal := perform (.jb rel) s noEffects

/-- `jnb rel8` (R124): never taken. -/
def execJnb (rel : Byte) (s : State) : Host.Outcome State Fault Refusal := perform (.jnb rel) s noEffects

/-- `je rel8` (R125): never taken. -/
def execJe (rel : Byte) (s : State) : Host.Outcome State Fault Refusal := perform (.je rel) s noEffects

/-- `jne rel8` (R126): taken when Z = 0. -/
def execJne (rel : Byte) (s : State) : Host.Outcome State Fault Refusal :=
  perform (.jne rel) s (if s.getFlag .z then noEffects else s.jumpEffects (relOf rel))

/-- `jbe rel8` (R127): never taken. -/
def execJbe (rel : Byte) (s : State) : Host.Outcome State Fault Refusal := perform (.jbe rel) s noEffects

/-- `ja rel8` (R128): never taken. -/
def execJa (rel : Byte) (s : State) : Host.Outcome State Fault Refusal := perform (.ja rel) s noEffects

/-- `js rel8` (R129): never taken. -/
def execJs (rel : Byte) (s : State) : Host.Outcome State Fault Refusal := perform (.js rel) s noEffects

/-- `jns rel8` (R130): never taken. -/
def execJns (rel : Byte) (s : State) : Host.Outcome State Fault Refusal := perform (.jns rel) s noEffects

/-- `jp rel8` (R131): never taken. -/
def execJp (rel : Byte) (s : State) : Host.Outcome State Fault Refusal := perform (.jp rel) s noEffects

/-- `jnp rel8` (R132): never taken. -/
def execJnp (rel : Byte) (s : State) : Host.Outcome State Fault Refusal := perform (.jnp rel) s noEffects

/-- `jl rel8` (R133): never taken. -/
def execJl (rel : Byte) (s : State) : Host.Outcome State Fault Refusal := perform (.jl rel) s noEffects

/-- `jnl rel8` (R134): never taken. -/
def execJnl (rel : Byte) (s : State) : Host.Outcome State Fault Refusal := perform (.jnl rel) s noEffects

/-- `jle rel8` (R135): never taken. -/
def execJle (rel : Byte) (s : State) : Host.Outcome State Fault Refusal := perform (.jle rel) s noEffects

/-- `jg rel8` (R136): never taken. -/
def execJg (rel : Byte) (s : State) : Host.Outcome State Fault Refusal := perform (.jg rel) s noEffects

/-- `loopnz rel8` (R137): never taken. -/
def execLoopnz (rel : Byte) (s : State) : Host.Outcome State Fault Refusal := perform (.loopnz rel) s noEffects

/-- `loopz rel8` (R138): never taken. -/
def execLoopz (rel : Byte) (s : State) : Host.Outcome State Fault Refusal := perform (.loopz rel) s noEffects

/-- `loop rel8` (R139): never taken. -/
def execLoop (rel : Byte) (s : State) : Host.Outcome State Fault Refusal := perform (.loop rel) s noEffects

/-- `jcxz rel8` (R140): never taken. -/
def execJcxz (rel : Byte) (s : State) : Host.Outcome State Fault Refusal := perform (.jcxz rel) s noEffects

end Sys2Proof.Machine
end

