-- ==== Sys2Proof/Machine/Mov.lean ====
section
/-! DEFINITION. The MOV family (spec/41_mov.md R98-R103). -/

namespace Sys2Proof.Machine

/-- `MOV r/m, reg` and `MOV reg, r/m` (R99). -/
def execMovRmReg (d : Bool) (w : Width) (rm : Rm) (reg : Reg) (s : State) : Host.Outcome State Fault Refusal :=
  perform (.movRmReg d w rm reg) s (s.movEffects (dstOf d rm reg) (.rm (srcOf d rm reg)))

/-- `MOV r/m, imm` (R100). -/
def execMovImmRm (w : Width) (rm : Rm) (imm : Imm) (s : State) : Host.Outcome State Fault Refusal :=
  perform (.movImmRm w rm imm) s (s.movEffects rm (.imm imm))

/-- `MOV reg, imm` (R101). -/
def execMovImmReg (w : Width) (reg : Reg) (imm : Imm) (s : State) : Host.Outcome State Fault Refusal :=
  perform (.movImmReg w reg imm) s (s.movEffects (.reg reg) (.imm imm))

/-- `MOV AL/AX, [addr]` (R102). -/
def execMovMemAcc (w : Width) (addr : Word) (s : State) : Host.Outcome State Fault Refusal :=
  perform (.movMemAcc w addr) s (s.movEffects (.reg (accOf w)) (.rm (.direct addr)))

/-- `MOV [addr], AL/AX` (R103). -/
def execMovAccMem (w : Width) (addr : Word) (s : State) : Host.Outcome State Fault Refusal :=
  perform (.movAccMem w addr) s (s.movEffects (.direct addr) (.rm (.reg (accOf w))))

end Sys2Proof.Machine
end

