-- ==== Sys2Proof/Machine/Dispatch.lean ====
section
/-! DEFINITION. The dispatch of an instruction to its meaning: the table of spec/40_execution_cycle.md R91. -/

namespace Sys2Proof.Machine

def exec (i : Instr) (s : State) : Host.Outcome State Fault Refusal :=
  match i with
  | .movRmReg d w rm reg => Sys2Proof.Machine.execMovRmReg d w rm reg s
  | .movImmRm w rm imm => Sys2Proof.Machine.execMovImmRm w rm imm s
  | .movImmReg w reg imm => Sys2Proof.Machine.execMovImmReg w reg imm s
  | .movMemAcc w addr => Sys2Proof.Machine.execMovMemAcc w addr s
  | .movAccMem w addr => Sys2Proof.Machine.execMovAccMem w addr s
  | .addRmReg d w rm reg => Sys2Proof.Machine.execAddRmReg d w rm reg s
  | .addImmRm sx w rm imm => Sys2Proof.Machine.execAddImmRm sx w rm imm s
  | .addImmAcc w imm => Sys2Proof.Machine.execAddImmAcc w imm s
  | .subRmReg d w rm reg => Sys2Proof.Machine.execSubRmReg d w rm reg s
  | .subImmRm sx w rm imm => Sys2Proof.Machine.execSubImmRm sx w rm imm s
  | .subImmAcc w imm => Sys2Proof.Machine.execSubImmAcc w imm s
  | .cmpRmReg d w rm reg => Sys2Proof.Machine.execCmpRmReg d w rm reg s
  | .cmpImmRm sx w rm imm => Sys2Proof.Machine.execCmpImmRm sx w rm imm s
  | .cmpImmAcc w imm => Sys2Proof.Machine.execCmpImmAcc w imm s
  | .jo rel => Sys2Proof.Machine.execJo rel s
  | .jno rel => Sys2Proof.Machine.execJno rel s
  | .jb rel => Sys2Proof.Machine.execJb rel s
  | .jnb rel => Sys2Proof.Machine.execJnb rel s
  | .je rel => Sys2Proof.Machine.execJe rel s
  | .jne rel => Sys2Proof.Machine.execJne rel s
  | .jbe rel => Sys2Proof.Machine.execJbe rel s
  | .ja rel => Sys2Proof.Machine.execJa rel s
  | .js rel => Sys2Proof.Machine.execJs rel s
  | .jns rel => Sys2Proof.Machine.execJns rel s
  | .jp rel => Sys2Proof.Machine.execJp rel s
  | .jnp rel => Sys2Proof.Machine.execJnp rel s
  | .jl rel => Sys2Proof.Machine.execJl rel s
  | .jnl rel => Sys2Proof.Machine.execJnl rel s
  | .jle rel => Sys2Proof.Machine.execJle rel s
  | .jg rel => Sys2Proof.Machine.execJg rel s
  | .loopnz rel => Sys2Proof.Machine.execLoopnz rel s
  | .loopz rel => Sys2Proof.Machine.execLoopz rel s
  | .loop rel => Sys2Proof.Machine.execLoop rel s
  | .jcxz rel => Sys2Proof.Machine.execJcxz rel s

end Sys2Proof.Machine
end

