-- ==== Sys2Proof/Machine/Step.lean ====
section
/-! DEFINITION. One step of the sequencer (spec/40_execution_cycle.md R85-R91), and the placing of a word of
the opcode table where the next step fetches. -/

namespace Sys2Proof.Machine

/-- A step. It is enabled only in `RUN` (R85): it halts at `ip >= L` (R87), takes a decode fault (R88), or
runs the decoded instruction (R90, R91). -/
def step (s : State) : Host.Outcome State Fault Refusal :=
  match s.status with
  | .halt => .fault .halted
  | .fault => .fault .faulted
  | .run =>
    if s.params.len.val ≤ s.ip.toNat then .next s.takeHalt
    else
      match decode s.window with
      | .error k => .next (s.takeFault (decodeFaultKind k))
      | .ok i => exec i s

/-- `s` with a word of the opcode table, followed by zeros, where `step` fetches its next instruction. -/
def State.withFetchWord (s : State) (nbits w : Nat) : State := s.withCode (tableBytes nbits w)

end Sys2Proof.Machine
end

