-- ==== Sys2Proof/Safety.lean ====
section
/-! DEFINITION. The terms of the claims: the invariant of the machine, what a committed step and a taken fault
leave, which register names share no bits, and the results of arithmetic said on plain numbers. -/

namespace Sys2Proof.Machine

/-- The bits of `F` that no operation writes: C, O and bits 7..5 (spec/10_state.md R23, R25). -/
def unwrittenFlags : Byte := 0xF1

/-- The invariant of a run: C, O and `F[7:5]` are 0 (R25); the buffer is in canonical form and lies inside
`0 .. L-1` (R34); a halted machine stands at or beyond `L` (R87); a faulted one stands at the instruction it
names, inside the buffer (R32, R146), with a kind that some input raises (R144, R145); every emitted trace
record is of an instruction inside the buffer (R69, R70, R95). -/
structure State.Inv (s : State) : Prop where
  flags : s.flags &&& unwrittenFlags = 0
  bufWf : Memory.wf s.params.buf
  bufInside : ∀ c ∈ s.params.buf, c.1 < s.params.len.val
  halted : s.status = .halt → s.params.len.val ≤ s.ip.toNat
  faulted : s.status = .fault →
    s.faultRec.atIp = s.ip ∧ s.ip.toNat < s.params.len.val ∧
    s.faultRec.kind ≠ .invalidOperandIndex ∧ s.faultRec.kind ≠ .unsupportedAddressingMode
  traced : ∀ r ∈ s.trace, 2 ≤ r.instr.len ∧ r.instr.len ≤ 6 ∧ r.atIp.toNat + r.instr.len ≤ s.params.len.val

/-- A run is safe so far when no fault has ended it. -/
def State.Safe (s : State) : Prop := s.status ≠ .fault

/-- The instruction lies in the buffer from `ip` on: what the decoder checks before it yields one (R57). -/
def State.fits (s : State) (i : Instr) : Prop := s.ip.toNat + i.len ≤ s.params.len.val

/-- Two register names share no bit of storage (R14). -/
def regDisjoint (q r : Reg) : Bool :=
  regStore q ≠ regStore r ∨ (regPart q = .low ∧ regPart r = .high) ∨ (regPart q = .high ∧ regPart r = .low)

/-- Every register reads as before. -/
def State.SameRegs (s t : State) : Prop := ∀ q, t.get q = s.get q

/-- Every register that shares no bit with `r` reads as before. -/
def State.SameRegsBut (s t : State) (r : Reg) : Prop := ∀ q, regDisjoint q r = true → t.get q = s.get q

/-- C, O and `F[7:5]` are as before. -/
def State.SameUnwrittenFlags (s t : State) : Prop := t.flags &&& unwrittenFlags = s.flags &&& unwrittenFlags

/-- The parameters of the run and every byte of the buffer are as before. -/
def State.SameProgram (s t : State) : Prop := t.params = s.params ∧ ∀ p, t.fetch p = s.fetch p

/-- `STATUS`, `FAULT`, the parameters and every byte of the buffer are as before. -/
def State.SameControl (s t : State) : Prop :=
  t.status = s.status ∧ t.faultRec = s.faultRec ∧ s.SameProgram t

/-- One trace record was emitted, of the instruction `i` at the old `ip` (R95). -/
def State.Traced (s t : State) (i : Instr) : Prop :=
  ∃ r, t.trace = s.trace ++ [r] ∧ r.atIp = s.ip ∧ r.instr = i.record

/-- What every committed step that does not jump leaves, beside registers and flags: `ip` at the following
instruction (R89), the control state as before, and one trace record (R94, R95). -/
def State.Advanced (s t : State) (i : Instr) : Prop :=
  (s.fits i → t.ip.toNat = s.ip.toNat + i.len) ∧ s.SameControl t ∧ s.Traced t i

/-- A fault of kind `k` was taken precisely (R146): `STATUS` and `FAULT` are written, and nothing else. -/
def State.FaultTaken (s t : State) (k : FaultKind) : Prop :=
  t.status = .fault ∧ t.faultRec = { kind := k, atIp := s.ip } ∧ s.SameRegs t ∧ t.flags = s.flags ∧
  t.ip = s.ip ∧ s.SameProgram t ∧ t.trace = s.trace

/-- Z, S and P of an unsigned number whose sign bit has weight `half` (R105). -/
def State.Shows (t : State) (v half : Nat) : Prop :=
  t.getFlag .z = decide (v = 0) ∧ t.getFlag .s = decide (half ≤ v) ∧ t.getFlag .p = decide (v % 2 = 0)

/-- The flags of an operation of width `w` whose exact result is congruent to `v` mod 65536, in the byte-flags
mode of `s` (R104, R105, R106). -/
def State.ArithFlags (s t : State) (w : Width) (v : Nat) : Prop :=
  match w, s.params.byteFlags with
  | .word, _ => t.Shows (v % 65536) 32768
  | .byte, .narrow => t.Shows (v % 256) 128
  | .byte, .wide16 => t.Shows (v % 65536) 32768

/-- The modulus of results of width `w` (R104, R106). -/
def modulus : Width → Nat
  | .byte => 256
  | .word => 65536

/-- The unsigned number of an immediate's 16 bits: one byte is sign-extended (R60, R97). -/
def immNumber : Imm → Nat
  | .absent => 0
  | .imm8 b => if b.toNat < 128 then b.toNat else b.toNat + 65280
  | .imm16 v => v.toNat

/-- An r/m operand that names memory (R92). -/
def namesMemory : Rm → Bool
  | .reg _ => false
  | .mem _ _ => true
  | .direct _ => true

/-- The instructions that write flags: ADD, SUB and CMP (R24). -/
def writesFlags : Instr → Bool
  | .addRmReg _ _ _ _ | .addImmRm _ _ _ _ | .addImmAcc _ _ => true
  | .subRmReg _ _ _ _ | .subImmRm _ _ _ _ | .subImmAcc _ _ => true
  | .cmpRmReg _ _ _ _ | .cmpImmRm _ _ _ _ | .cmpImmAcc _ _ => true
  | .movRmReg _ _ _ _ | .movImmRm _ _ _ | .movImmReg _ _ _ | .movMemAcc _ _ | .movAccMem _ _ => false
  | .jo _ | .jno _ | .jb _ | .jnb _ | .je _ | .jne _ | .jbe _ | .ja _ => false
  | .js _ | .jns _ | .jp _ | .jnp _ | .jl _ | .jnl _ | .jle _ | .jg _ => false
  | .loopnz _ | .loopz _ | .loop _ | .jcxz _ => false

/-- The one instruction that can transfer control, `jne` (R119). -/
def isJne : Instr → Bool
  | .jne _ => true
  | .addRmReg _ _ _ _ | .addImmRm _ _ _ _ | .addImmAcc _ _ => false
  | .subRmReg _ _ _ _ | .subImmRm _ _ _ _ | .subImmAcc _ _ => false
  | .cmpRmReg _ _ _ _ | .cmpImmRm _ _ _ _ | .cmpImmAcc _ _ => false
  | .movRmReg _ _ _ _ | .movImmRm _ _ _ | .movImmReg _ _ _ | .movMemAcc _ _ | .movAccMem _ _ => false
  | .jo _ | .jno _ | .jb _ | .jnb _ | .je _ | .jbe _ | .ja _ => false
  | .js _ | .jns _ | .jp _ | .jnp _ | .jl _ | .jnl _ | .jle _ | .jg _ => false
  | .loopnz _ | .loopz _ | .loop _ | .jcxz _ => false

/-- The register an instruction writes when it is executed: the register destination of MOV, ADD and SUB (R16). -/
def writtenReg : Instr → Option Reg
  | .movRmReg d _ rm reg | .addRmReg d _ rm reg | .subRmReg d _ rm reg =>
    match dstOf d rm reg with
    | .reg r => some r
    | .mem _ _ => none
    | .direct _ => none
  | .movImmRm _ rm _ | .addImmRm _ _ rm _ | .subImmRm _ _ rm _ =>
    match rm with
    | .reg r => some r
    | .mem _ _ => none
    | .direct _ => none
  | .movImmReg _ reg _ => some reg
  | .movMemAcc w _ => some (accOf w)
  | .addImmAcc w _ | .subImmAcc w _ => some (accOf w)
  | .movAccMem _ _ => none
  | .cmpRmReg _ _ _ _ | .cmpImmRm _ _ _ _ | .cmpImmAcc _ _ => none
  | .jo _ | .jno _ | .jb _ | .jnb _ | .je _ | .jne _ | .jbe _ | .ja _ => none
  | .js _ | .jns _ | .jp _ | .jnp _ | .jl _ | .jnl _ | .jle _ | .jg _ => none
  | .loopnz _ | .loopz _ | .loop _ | .jcxz _ => none

/-- MOV completed (R98): the register `r` holds the number `v`, at the width of the instruction, and no flag
changed. -/
def State.MoveDone (s t : State) (i : Instr) (w : Width) (r : Reg) (v : Nat) : Prop :=
  (t.get r).toNat = v % modulus w ∧ s.SameRegsBut t r ∧ t.flags = s.flags ∧ s.Advanced t i

/-- ADD or SUB completed (R104, R105, R106) with an exact result congruent to `v`: the register `r` holds it at
the width of the instruction, Z, S and P show it, and nothing else but `ip` changed. -/
def State.ArithDone (s t : State) (i : Instr) (w : Width) (r : Reg) (v : Nat) : Prop :=
  (t.get r).toNat = v % modulus w ∧ s.SameRegsBut t r ∧ s.ArithFlags t w v ∧ s.SameUnwrittenFlags t ∧ s.Advanced t i

/-- CMP completed (R114-R116) with a difference congruent to `v`: Z, S and P show it, and no register changed. -/
def State.CompareDone (s t : State) (i : Instr) (w : Width) (v : Nat) : Prop :=
  s.SameRegs t ∧ s.ArithFlags t w v ∧ s.SameUnwrittenFlags t ∧ s.Advanced t i

/-- A jump or loop fell through (R119): `ip` at the following instruction and nothing else. -/
def State.FellThrough (s t : State) (i : Instr) : Prop :=
  s.SameRegs t ∧ t.flags = s.flags ∧ s.Advanced t i

/-- The number a register holds. -/
def State.number (s : State) (r : Reg) : Int := (s.get r).toNat

/-! ## The terms of the trace: what a record shows of an instruction's operands -/

/-- The displacement bytes of a memory operand as a signed number, if there are any (R58). -/
def shownDisp : Disp → Option Int
  | .absent => none
  | .disp8 b => some (if b.toNat < 128 then (b.toNat : Int) else (b.toNat : Int) - 256)
  | .disp16 v => some (if v.toNat < 32768 then (v.toNat : Int) else (v.toNat : Int) - 65536)

/-- An r/m operand as the record shows it: the three results of `rm_operand` (R58). -/
def shownRm : Rm → Operand
  | .reg r => .register r
  | .mem eac disp => .memory eac (shownDisp disp)
  | .direct addr => .memoryDirect addr

/-- An immediate as the record shows it, a signed number, or `ImmediateAbsent` (R60, R62). -/
def shownImm : Imm → Operand
  | .absent => .immediateAbsent
  | .imm8 b => .immediate (if b.toNat < 128 then (b.toNat : Int) else (b.toNat : Int) - 256)
  | .imm16 v => .immediate (if v.toNat < 32768 then (v.toNat : Int) else (v.toNat : Int) - 65536)

/-- Destination and source of a register/memory and register form: the reg field's operand comes first when
`d = 1` and last when `d = 0` (R61). -/
def shownPair (d : Bool) (rm : Rm) (reg : Reg) : Operands :=
  match d with
  | true => .pair (.register reg) (shownRm rm)
  | false => .pair (shownRm rm) (.register reg)

/-- The accumulator of a width, by its name (R66, R67). -/
def shownAcc : Width → Operand
  | .byte => .register .al
  | .word => .register .ax

/-- The instruction's record has exactly these fields (R77), and the instruction's length. -/
def RecordIs (i : Instr) (cls : OpClass) (op : Op) (d : Option Bool) (w : Option Width) (s : Option Bool)
    (operands : Operands) : Prop :=
  i.record = { cls, op, d, w, s, operands, len := i.len }

/-- The record of a member of the jump/loop family: no flag of the opcode, and the signed byte (R59, R68, R77). -/
def JumpRecordIs (i : Instr) (j : Jcc) (rel : Byte) : Prop :=
  RecordIs i (.jcc j) (.jump j) none none none
    (.displacement (if rel.toNat < 128 then (rel.toNat : Int) else (rel.toNat : Int) - 256))

/-- The one operand of an instruction that can name memory: the r/m operand of a mode byte, or the direct address
of an accumulator MOV (R58, R67). -/
def memoryOperand : Instr → Option Rm
  | .movRmReg _ _ rm _ | .addRmReg _ _ rm _ | .subRmReg _ _ rm _ | .cmpRmReg _ _ rm _ => some rm
  | .movImmRm _ rm _ | .addImmRm _ _ rm _ | .subImmRm _ _ rm _ | .cmpImmRm _ _ rm _ => some rm
  | .movMemAcc _ addr | .movAccMem _ addr => some (.direct addr)
  | .movImmReg _ _ _ | .addImmAcc _ _ | .subImmAcc _ _ | .cmpImmAcc _ _ => none
  | .jo _ | .jno _ | .jb _ | .jnb _ | .je _ | .jne _ | .jbe _ | .ja _ => none
  | .js _ | .jns _ | .jp _ | .jnp _ | .jl _ | .jnl _ | .jle _ | .jg _ => none
  | .loopnz _ | .loopz _ | .loop _ | .jcxz _ => none

/-- The numeric address of an EAC form with its displacement, before it is taken mod 65536 (R55, R84). -/
def State.eacSum (s : State) (eac : Eac) (disp : Disp) : Int :=
  (match eac with
    | .bxSi => s.number .bx + s.number .si
    | .bxDi => s.number .bx + s.number .di
    | .bpSi => s.number .bp + s.number .si
    | .bpDi => s.number .bp + s.number .di
    | .si => s.number .si
    | .di => s.number .di
    | .bp => s.number .bp
    | .bx => s.number .bx) + (shownDisp disp).getD 0

end Sys2Proof.Machine
end

