-- ==== Sys2Proof/Certificates/Slice0/Obligations.lean ====
section
/-! DEFINITION. The statements for the provers. Each docstring names the rules of spec/ it formalises. -/

open Sys2Proof Sys2Proof.Machine

/-! ## Decoding and encoding (spec/30_encoding.md) -/

/-- R53-R68: whatever bytes follow, the decoder reads a well-formed instruction back from its encoding, with
every operand at every value the encoding admits. -/
def Obligations.DecodeOfEncodeIsTheInstruction : Prop :=
  ∀ (i : Instr) (rest : List Byte), i.wf = true → decode (encode i ++ rest) = .ok i

/-- R69: the bytes that decode to an instruction are its encoding, and they are as many as its length. -/
def Obligations.EncodeOfDecodeIsTheBytesRead : Prop :=
  ∀ (bs : List Byte) (i : Instr), decode bs = .ok i → i.len ≤ bs.length ∧ bs.take i.len = encode i

/-- R54, R58, R62, R71: the decoder yields only well-formed instructions. -/
def Obligations.DecodedInstructionsAreWellFormed : Prop :=
  ∀ (bs : List Byte) (i : Instr), decode bs = .ok i → i.wf = true

/-- R41, R69: the decoder reads no byte outside `B[p .. p+len-1]`, so other bytes there change nothing. -/
def Obligations.DecodeReadsOnlyItsOwnBytes : Prop :=
  ∀ (bs bs' : List Byte) (i : Instr), decode bs = .ok i → bs'.take i.len = bs.take i.len → decode bs' = .ok i

/-- R51: the matcher's table holds 12 patterns of lengths 4, 6 and 7 and the 20 full bytes, and no byte matches
two of them. -/
def Obligations.MatcherTableHasNoOverlap : Prop :=
  formPatterns.length = 12 ∧ (∀ row ∈ formPatterns, row.len = 4 ∨ row.len = 6 ∨ row.len = 7) ∧
  jumpPatterns.map (·.bits) = (List.range 16).map (0x70 + ·) ++ [0xE0, 0xE1, 0xE2, 0xE3] ∧
  (∀ row ∈ jumpPatterns, row.len = 8) ∧ patternTable = formPatterns ++ jumpPatterns ∧
  ∀ b0 : Byte, (patternTable.filter (·.matchesByte b0)).length ≤ 1

/-- R52: `match_bits` answers the class and length of the longest pattern that is a prefix of the byte, and none
exactly where no pattern is one; none is reported as `UnknownOpcode`. -/
def Obligations.MatcherFindsTheLongestPrefix : Prop :=
  ∀ b0 : Byte,
    (∀ c n, matchBits b0 = some (c, n) →
      (∃ row ∈ patternTable, row.cls = c ∧ row.len = n ∧ row.bits = b0.toNat >>> (8 - n)) ∧
      ∀ row ∈ patternTable, row.bits = b0.toNat >>> (8 - row.len) → row.len ≤ n) ∧
    (matchBits b0 = none ↔ ∀ row ∈ patternTable, row.bits ≠ b0.toNat >>> (8 - row.len)) ∧
    (matchBits b0 = none → ∀ rest, decode (b0 :: rest) = .error .unknownOpcode)

/-- R73: the first bytes the matcher matches are the ten listed ranges, 68 values; a step that begins at any other
byte faults with `UnknownOpcode` at the instruction's offset. -/
def Obligations.OtherFirstBytesAreUnknownOpcode : Prop :=
  (∀ b0 : Byte, (matchBits b0).isSome = true ↔
    b0.toNat ≤ 0x05 ∨ (0x28 ≤ b0.toNat ∧ b0.toNat ≤ 0x2D) ∨ (0x38 ≤ b0.toNat ∧ b0.toNat ≤ 0x3D) ∨
    (0x70 ≤ b0.toNat ∧ b0.toNat ≤ 0x7F) ∨ (0x80 ≤ b0.toNat ∧ b0.toNat ≤ 0x83) ∨
    (0x88 ≤ b0.toNat ∧ b0.toNat ≤ 0x8B) ∨ (0xA0 ≤ b0.toNat ∧ b0.toNat ≤ 0xA3) ∨
    (0xB0 ≤ b0.toNat ∧ b0.toNat ≤ 0xBF) ∨ (0xC6 ≤ b0.toNat ∧ b0.toNat ≤ 0xC7) ∨
    (0xE0 ≤ b0.toNat ∧ b0.toNat ≤ 0xE3)) ∧
  ((List.range 256).filter (fun n => (matchBits (BitVec.ofNat 8 n)).isSome)).length = 68 ∧
  ∀ (s : State) (b0 : Byte), s.status = .run → s.fetch s.ip.toNat = some b0 → matchBits b0 = none →
    ∃ t, step s = .next t ∧ s.FaultTaken t .unknownOpcode

/-- R142 and R74: the three causes of `UnknownOpcode`; the two that depend on the mode byte come before the rest of
the length is checked. -/
def Obligations.UnknownOpcodeHasThreeCauses : Prop :=
  ∀ bs : List Byte, decode bs = .error .unknownOpcode ↔
    ∃ b0 rest, bs = b0 :: rest ∧
      (matchBits b0 = none ∨
       ∃ b1 rest', rest = b1 :: rest' ∧
        ((0x80 ≤ b0.toNat ∧ b0.toNat ≤ 0x83 ∧
            b1.toNat / 8 % 8 ≠ 0 ∧ b1.toNat / 8 % 8 ≠ 5 ∧ b1.toNat / 8 % 8 ≠ 7) ∨
         (0xC6 ≤ b0.toNat ∧ b0.toNat ≤ 0xC7 ∧ b1.toNat / 8 % 8 ≠ 0)))

/-- R57, R143: an instruction cut short by the end of the buffer is truncated, at every cut. -/
def Obligations.CutInstructionsAreTruncated : Prop :=
  ∀ (i : Instr) (n : Nat), i.wf = true → 0 < n → n < i.len →
    decode ((encode i).take n) = .error .truncatedInstruction

/-- R70: the length of every class, from the opcode byte and the mode byte's `mod` and `rm`. -/
def Obligations.LengthsByClass : Prop :=
  ∀ (b0 b1 : Byte) (rest : List Byte) (i : Instr), decode (b0 :: b1 :: rest) = .ok i →
    let mod := b1.toNat / 64
    let rm := b1.toNat % 8
    let nd := if mod = 3 then 0 else if mod = 0 ∧ rm = 6 then 2 else mod
    let w := b0.toNat % 2
    let sx := b0.toNat / 2 % 2
    ((b0.toNat / 4 = 0x00 ∨ b0.toNat / 4 = 0x0A ∨ b0.toNat / 4 = 0x0E ∨ b0.toNat / 4 = 0x22) →
      (mod = 3 → i.len = 2) ∧ (mod = 0 ∧ rm ≠ 6 → i.len = 2) ∧ (mod = 0 ∧ rm = 6 → i.len = 4) ∧
      (mod = 1 → i.len = 3) ∧ (mod = 2 → i.len = 4)) ∧
    (b0.toNat / 2 = 0x63 → i.len = 2 + nd + (w + 1) ∧ 3 ≤ i.len ∧ i.len ≤ 6) ∧
    (b0.toNat / 4 = 0x20 → i.len = 2 + nd + (w + 1 - sx) ∧ 2 ≤ i.len ∧ i.len ≤ 6) ∧
    (b0.toNat / 16 = 0x0B → i.len = if b0.toNat / 8 % 2 = 0 then 2 else 3) ∧
    (b0.toNat / 2 = 0x02 ∨ b0.toNat / 2 = 0x16 ∨ b0.toNat / 2 = 0x1E → i.len = if w = 0 then 2 else 3) ∧
    (b0.toNat / 4 = 0x28 → i.len = 3) ∧
    ((0x70 ≤ b0.toNat ∧ b0.toNat ≤ 0x7F) ∨ b0.toNat / 4 = 0x38 → i.len = 2)

/-- Words written out bit by bit from the encodings of R50 and R53-R68, with the source's own examples of R50, R53
and R65 among them. -/
def Obligations.SpecWordsDecodeAsWritten : Prop :=
  decode [0b10111000, 0b00000101, 0b00000000] = .ok (.movImmReg .word .ax (.imm16 5)) ∧
  decode [0b10001001, 0b11011000] = .ok (.movRmReg false .word (.reg .ax) .bx) ∧
  decode [0b10000011, 0b11000110, 0b00000010] = .ok (.addImmRm true .word (.reg .si) (.imm8 2)) ∧
  decode [0b01110101, 0b11111100] = .ok (.jne 0xFC) ∧
  decode [0b00000011, 0b01011000, 0b00000100] = .ok (.addRmReg true .word (.mem .bxSi (.disp8 4)) .bx) ∧
  decode [0b10000011, 0b00111110, 0b11101000, 0b00000011, 0b00001100] =
    .ok (.cmpImmRm true .word (.direct 1000) (.imm8 12)) ∧
  decode [0b10000010, 0b11000011] = .ok (.addImmRm true .byte (.reg .bl) .absent) ∧
  decode [0b10100011, 0b00000000, 0b00000001] = .ok (.movAccMem .word 256) ∧
  decode [0b11100010, 0b11111110] = .ok (.loop 0xFE)

/-- R77, with R58, R60, R61 and R63-R68: the instruction record of every instruction: its class, its operation, the
values of the flags d, w and s where the class has them and none where it has not, its operands with the destination
first, and its length. -/
def Obligations.RecordFieldsByClass : Prop :=
  (∀ d w rm reg, RecordIs (.movRmReg d w rm reg) .movRmReg .mov (some d) (some w) none (shownPair d rm reg)) ∧
  (∀ w rm imm, RecordIs (.movImmRm w rm imm) .movImmRm .mov none (some w) none
    (.pair (shownRm rm) (shownImm imm))) ∧
  (∀ w reg imm, RecordIs (.movImmReg w reg imm) .movImmReg .mov none (some w) none
    (.pair (.register reg) (shownImm imm))) ∧
  (∀ w addr, RecordIs (.movMemAcc w addr) .movMemAcc .mov none (some w) none
    (.pair (shownAcc w) (.memoryDirect addr))) ∧
  (∀ w addr, RecordIs (.movAccMem w addr) .movAccMem .mov none (some w) none
    (.pair (.memoryDirect addr) (shownAcc w))) ∧
  (∀ d w rm reg, RecordIs (.addRmReg d w rm reg) .addRmReg .add (some d) (some w) none (shownPair d rm reg)) ∧
  (∀ s w rm imm, RecordIs (.addImmRm s w rm imm) .arithImmRm .add none (some w) (some s)
    (.pair (shownRm rm) (shownImm imm))) ∧
  (∀ w imm, RecordIs (.addImmAcc w imm) .addImmAcc .add none (some w) none (.pair (shownAcc w) (shownImm imm))) ∧
  (∀ d w rm reg, RecordIs (.subRmReg d w rm reg) .subRmReg .sub (some d) (some w) none (shownPair d rm reg)) ∧
  (∀ s w rm imm, RecordIs (.subImmRm s w rm imm) .arithImmRm .sub none (some w) (some s)
    (.pair (shownRm rm) (shownImm imm))) ∧
  (∀ w imm, RecordIs (.subImmAcc w imm) .subImmAcc .sub none (some w) none (.pair (shownAcc w) (shownImm imm))) ∧
  (∀ d w rm reg, RecordIs (.cmpRmReg d w rm reg) .cmpRmReg .cmp (some d) (some w) none (shownPair d rm reg)) ∧
  (∀ s w rm imm, RecordIs (.cmpImmRm s w rm imm) .arithImmRm .cmp none (some w) (some s)
    (.pair (shownRm rm) (shownImm imm))) ∧
  (∀ w imm, RecordIs (.cmpImmAcc w imm) .cmpImmAcc .cmp none (some w) none (.pair (shownAcc w) (shownImm imm))) ∧
  ∀ rel,
    JumpRecordIs (.jo rel) .jo rel ∧ JumpRecordIs (.jno rel) .jno rel ∧
    JumpRecordIs (.jb rel) .jb rel ∧ JumpRecordIs (.jnb rel) .jnb rel ∧
    JumpRecordIs (.je rel) .je rel ∧ JumpRecordIs (.jne rel) .jne rel ∧
    JumpRecordIs (.jbe rel) .jbe rel ∧ JumpRecordIs (.ja rel) .ja rel ∧
    JumpRecordIs (.js rel) .js rel ∧ JumpRecordIs (.jns rel) .jns rel ∧
    JumpRecordIs (.jp rel) .jp rel ∧ JumpRecordIs (.jnp rel) .jnp rel ∧
    JumpRecordIs (.jl rel) .jl rel ∧ JumpRecordIs (.jnl rel) .jnl rel ∧
    JumpRecordIs (.jle rel) .jle rel ∧ JumpRecordIs (.jg rel) .jg rel ∧
    JumpRecordIs (.loopnz rel) .loopnz rel ∧ JumpRecordIs (.loopz rel) .loopz rel ∧
    JumpRecordIs (.loop rel) .loop rel ∧ JumpRecordIs (.jcxz rel) .jcxz rel

/-! ## The register file, the flags and reset (spec/10_state.md, 70_reset_and_hazards.md) -/

/-- R15: the aliasing invariant, in every state. -/
def Obligations.WordRegistersAliasTheirBytes : Prop :=
  ∀ s : State,
    s.get .ax = (s.get .ah <<< 8) ||| s.get .al ∧ s.get .cx = (s.get .ch <<< 8) ||| s.get .cl ∧
    s.get .dx = (s.get .dh <<< 8) ||| s.get .dl ∧ s.get .bx = (s.get .bh <<< 8) ||| s.get .bl

/-- R14 and R19: what `get` of each name reads of the backing words. -/
def Obligations.GetReadsTheNamedBits : Prop :=
  ∀ s : State,
    (s.get .ax = s.regs.a ∧ (s.get .al).toNat = s.regs.a.toNat % 256 ∧ (s.get .ah).toNat = s.regs.a.toNat / 256) ∧
    (s.get .cx = s.regs.c ∧ (s.get .cl).toNat = s.regs.c.toNat % 256 ∧ (s.get .ch).toNat = s.regs.c.toNat / 256) ∧
    (s.get .dx = s.regs.d ∧ (s.get .dl).toNat = s.regs.d.toNat % 256 ∧ (s.get .dh).toNat = s.regs.d.toNat / 256) ∧
    (s.get .bx = s.regs.b ∧ (s.get .bl).toNat = s.regs.b.toNat % 256 ∧ (s.get .bh).toNat = s.regs.b.toNat / 256) ∧
    s.get .sp = s.regs.sp ∧ s.get .bp = s.regs.bp ∧ s.get .si = s.regs.si ∧ s.get .di = s.regs.di

/-- R20 and R21: `set` of a word name replaces all 16 bits, and so both byte halves; `set` of a byte name takes
`v[7:0]` and leaves the other half. Every register that shares no bit is unchanged, and so is all other state. -/
def Obligations.SetWritesTheNamedBits : Prop :=
  ∀ (s : State) (r : Reg) (v : Word),
    (r.width = .word → (s.set r v).get r = v) ∧
    (r.width = .byte → ((s.set r v).get r).toNat = v.toNat % 256) ∧
    (∀ q, regDisjoint q r = true → (s.set r v).get q = s.get q) ∧
    ((s.set .ax v).get .al).toNat = v.toNat % 256 ∧ ((s.set .ax v).get .ah).toNat = v.toNat / 256 ∧
    ((s.set .cx v).get .cl).toNat = v.toNat % 256 ∧ ((s.set .cx v).get .ch).toNat = v.toNat / 256 ∧
    ((s.set .dx v).get .dl).toNat = v.toNat % 256 ∧ ((s.set .dx v).get .dh).toNat = v.toNat / 256 ∧
    ((s.set .bx v).get .bl).toNat = v.toNat % 256 ∧ ((s.set .bx v).get .bh).toNat = v.toNat / 256 ∧
    (s.set r v).flags = s.flags ∧ (s.set r v).ip = s.ip ∧ s.SameControl (s.set r v) ∧ (s.set r v).trace = s.trace

/-- R105: `set_flags_from_result` writes Z, S and P from the result and leaves C, O and `F[7:5]` and all other
state alone; S is bit 15 of the result's 16-bit pattern. -/
def Obligations.FlagsFollowTheResult : Prop :=
  ∀ (s : State) (res : Int), -32768 ≤ res → res ≤ 32767 →
    (s.setFlagsFromResult res).getFlag .z = decide (res = 0) ∧
    (s.setFlagsFromResult res).getFlag .s = decide (res < 0) ∧
    (s.setFlagsFromResult res).getFlag .s = (unsigned16 res).getLsbD 15 ∧
    (s.setFlagsFromResult res).getFlag .p = decide (res % 2 = 0) ∧
    (s.setFlagsFromResult res).getFlag .p = !(unsigned16 res).getLsbD 0 ∧
    (s.setFlagsFromResult res).getFlag .c = s.getFlag .c ∧
    (s.setFlagsFromResult res).getFlag .o = s.getFlag .o ∧
    (∀ k, 5 ≤ k → (s.setFlagsFromResult res).flags.getLsbD k = s.flags.getLsbD k) ∧
    s.SameRegs (s.setFlagsFromResult res) ∧ (s.setFlagsFromResult res).ip = s.ip ∧
    s.SameControl (s.setFlagsFromResult res)

/-- R36: what reset leaves in every element the spec gives a value for. -/
def Obligations.ResetValues : Prop :=
  (∀ r, State.reset.get r = 0) ∧ State.reset.flags = 0 ∧ (∀ f, State.reset.getFlag f = false) ∧
  State.reset.ip = 0 ∧ State.reset.status = .run

/-- R157 and R160: reset is accepted in any state; it writes the reset values and fixes the modes, the length and
every byte of the buffer. A buffer over 65535 bytes is refused. The empty trace is the model's choice
(notes/assumptions/7.md). -/
def Obligations.ResetSuppliesTheBuffer : Prop :=
  ∀ (s : State) (bytes : List Byte) (em : ExecMode) (bf : ByteFlagsMode),
    (bytes.length ≤ 65535 → ∃ t, resetRun s bytes em bf = .next t ∧
      (∀ r, t.get r = 0) ∧ t.flags = 0 ∧ t.ip = 0 ∧ t.status = .run ∧ t.trace = [] ∧
      t.params.execMode = em ∧ t.params.byteFlags = bf ∧ t.params.len.val = bytes.length ∧
      ∀ p, t.fetch p = bytes[p]?) ∧
    (65535 < bytes.length → resetRun s bytes em bf = .refused .bufferTooLong)

/-! ## The step (spec/40_execution_cycle.md, 60_exceptions.md) -/

/-- R85: in RUN a step is enabled; in HALT and in FAULT none is. That a step which is not enabled is the outcome
`fault` is the model's form (notes/assumptions/1.md). -/
def Obligations.StepsAreEnabledExactlyInRun : Prop :=
  ∀ s : State,
    (s.status = .run → ∃ t, step s = .next t) ∧
    (s.status = .halt → step s = .fault .halted) ∧
    (s.status = .fault → step s = .fault .faulted)

/-- R87: at `ip >= L` a step writes `STATUS <- HALT` and nothing else, and emits no trace record. -/
def Obligations.StepAtBufferEndHalts : Prop :=
  ∀ s : State, s.status = .run → s.params.len.val ≤ s.ip.toNat →
    ∃ t, step s = .next t ∧ t.status = .halt ∧ t.faultRec = s.faultRec ∧ s.SameRegs t ∧ t.flags = s.flags ∧
      t.ip = s.ip ∧ s.SameProgram t ∧ t.trace = s.trace

/-- R88: where the decoder returns a fault kind, the step takes it, and writes nothing else. -/
def Obligations.DecodeFailuresAreTaken : Prop :=
  ∀ s : State, s.status = .run → s.ip.toNat < s.params.len.val →
    (decode s.window = .error .unknownOpcode → ∃ t, step s = .next t ∧ s.FaultTaken t .unknownOpcode) ∧
    (decode s.window = .error .truncatedInstruction → ∃ t, step s = .next t ∧ s.FaultTaken t .truncatedInstruction)

/-- R88, R91: a step on bytes that decode to an instruction is that instruction's meaning, with nothing around it. -/
def Obligations.StepRunsTheDecodedInstruction : Prop :=
  ∀ (s : State) (i : Instr), s.status = .run → s.ip.toNat < s.params.len.val → decode s.window = .ok i →
    step s = exec i s

/-- R41, R88, R91: where the buffer holds the encoding of a well-formed instruction at `ip`, a step is that
instruction's meaning, whatever stands behind it. -/
def Obligations.StepRunsTheInstructionInTheBuffer : Prop :=
  ∀ (s : State) (i : Instr), s.status = .run → i.wf = true → s.fits i →
    (∀ k < i.len, s.fetch (s.ip.toNat + k) = (encode i)[k]?) → step s = exec i s

/-- R57, R89: a decoded instruction lies in the buffer, so `ip_next` fits in 16 bits; a step that commits it
leaves `ip` there unless it is `jne`, the only instruction that can put `ip` elsewhere. -/
def Obligations.OnlyJneLeavesTheSequence : Prop :=
  ∀ (s t : State) (i : Instr), s.status = .run → s.ip.toNat < s.params.len.val → decode s.window = .ok i →
    step s = .next t →
    s.fits i ∧ s.ip.toNat + i.len ≤ 65535 ∧
    (t.status = .run → isJne i = false → t.ip.toNat = s.ip.toNat + i.len)

/-- R146: a step that ends in FAULT began in RUN, and wrote `STATUS` and `FAULT` and nothing else. -/
def Obligations.FaultsArePrecise : Prop :=
  ∀ s t : State, step s = .next t → t.status = .fault → s.status = .run ∧ ∃ k, s.FaultTaken t k

/-- R31, R85: the legal transitions of `STATUS`; it is HALT only at `ip >= L`, with `ip` unchanged. -/
def Obligations.StatusTransitions : Prop :=
  ∀ s t : State, step s = .next t → s.status = .run ∧
    (t.status = .run ∨ t.status = .fault ∨ (t.status = .halt ∧ s.params.len.val ≤ s.ip.toNat ∧ t.ip = s.ip))

/-- R144 and R145: no input raises `InvalidOperandIndex` or `UnsupportedAddressingMode`. -/
def Obligations.TwoFaultKindsAreNeverRaised : Prop :=
  ∀ s t : State, step s = .next t → t.status = .fault →
    t.faultRec.kind ≠ .invalidOperandIndex ∧ t.faultRec.kind ≠ .unsupportedAddressingMode

/-- R48: later fetches see the bytes as loaded; no step writes the buffer or a parameter of the run. -/
def Obligations.ProgramNeverChanges : Prop :=
  ∀ s t : State, step s = .next t → ∀ p, t.fetch p = s.fetch p ∧ t.params = s.params

/-- R94, R95: a step that commits emits one trace record, of the instruction decoded at the old `ip`; a halting or
faulting step emits none. That the records are kept in a list is the model's choice (notes/assumptions/7.md). -/
def Obligations.OneTraceRecordPerCommit : Prop :=
  ∀ s t : State, step s = .next t →
    (t.status = .run ∧ ∃ i, decode s.window = .ok i ∧ s.Traced t i) ∨ (t.status ≠ .run ∧ t.trace = s.trace)

/-- R95: the resulting values of a committed instruction in EXECUTE mode are the destination register before and
after, the flags register before and after, and `ip` after; in DECODE_ONLY there are none. That the records are kept
in a list is the model's choice (notes/assumptions/7.md). -/
def Obligations.TraceHoldsTheResultingValues : Prop :=
  ∀ (i : Instr) (s t : State), exec i s = .next t → t.trace ≠ s.trace →
    ∃ r, t.trace = s.trace ++ [r] ∧ r.atIp = s.ip ∧ r.instr = i.record ∧
      r.values = match s.params.execMode with
        | .decodeOnly => none
        | .execute => some
            { dst := (writtenReg i).map (fun q => { reg := q, before := s.get q, after := t.get q })
              flags := if writesFlags i then some { before := s.flags, after := t.flags } else none
              ipAfter := t.ip }

/-- R84, R95: the numeric address that a trace record reports, for every instruction and every operand form. A listing
reports the EAC form's sum mod 65536, from the registers at the start of the step, and a direct address (of a mode
byte or of an accumulator MOV) as itself; for an instruction without a memory operand it reports none, and neither
does a committed instruction in EXECUTE, since none with a memory operand commits (R92). The spec says that a core may
report the address; that this one always does is the model's choice (notes/assumptions/7.md). -/
def Obligations.ReportedEffectiveAddresses : Prop :=
  (∀ (i : Instr) (s : State), s.params.execMode = .decodeOnly →
    ∃ t r, exec i s = .next t ∧ t.trace = s.trace ++ [r] ∧
      (∀ eac disp, memoryOperand i = some (.mem eac disp) →
        ∃ a, r.ea = some a ∧ (a.toNat : Int) = s.eacSum eac disp % 65536) ∧
      (∀ addr, memoryOperand i = some (.direct addr) → r.ea = some addr) ∧
      (∀ reg, memoryOperand i = some (.reg reg) → r.ea = none) ∧
      (memoryOperand i = none → r.ea = none)) ∧
  ∀ (i : Instr) (s t : State) (r : TraceRecord), s.params.execMode = .execute → exec i s = .next t →
    t.trace = s.trace ++ [r] → r.ea = none

/-! ## The instructions: all of them -/

/-- R91, R146: every meaning answers a next state, in every state: no instruction is refused, and a fault that an
instruction raises is a state (notes/assumptions/1.md). -/
def Obligations.EveryInstructionAnswersANextState : Prop :=
  ∀ (i : Instr) (s : State), ∃ t, exec i s = .next t

/-- R90: in DECODE_ONLY every instruction completes: `ip` advances by its length and one trace record is emitted;
no register and no flag changes, no branch is evaluated and no fault is raised. -/
def Obligations.DecodeOnlyListsEveryInstruction : Prop :=
  ∀ (i : Instr) (s : State), s.params.execMode = .decodeOnly →
    ∃ t, exec i s = .next t ∧ s.SameRegs t ∧ t.flags = s.flags ∧ s.Advanced t i

/-- R16, R24, R34, R48: the frame of every instruction on every path. The buffer and the parameters are unchanged;
of the registers only the destination's bits can change (CMP, the jumps and the loops have none); of the flags only
Z, S and P, and those only for ADD, SUB and CMP; `STATUS` and `FAULT` change only by taking a fault. -/
def Obligations.FrameOfEveryInstruction : Prop :=
  ∀ (i : Instr) (s t : State), exec i s = .next t →
    s.SameProgram t ∧
    (∀ r, writtenReg i = some r → s.SameRegsBut t r) ∧ (writtenReg i = none → s.SameRegs t) ∧
    s.SameUnwrittenFlags t ∧ (writesFlags i = false → t.flags = s.flags) ∧
    (s.SameControl t ∨ ∃ k, s.FaultTaken t k)

/-- R24: only ADD, SUB and CMP write flags, and they write exactly Z, S and P. -/
def Obligations.OnlyArithmeticWritesFlags : Prop :=
  ∀ (i : Instr) (s t : State), exec i s = .next t →
    (writesFlags i = false → t.flags = s.flags) ∧
    ∀ k, k ≠ flagBit .z → k ≠ flagBit .s → k ≠ flagBit .p → t.flags.getLsbD k = s.flags.getLsbD k

/-- R25: C, O and `F[7:5]` are 0 after reset and after every number of steps from it. -/
def Obligations.CarryAndOverflowStayZero : Prop :=
  ∀ (s₀ s t : State) (bytes : List Byte) (em : ExecMode) (bf : ByteFlagsMode) (n : Nat),
    resetRun s₀ bytes em bf = .next s → core.run n s = .next t →
    t.getFlag .c = false ∧ t.getFlag .o = false ∧ ∀ k, 5 ≤ k → t.flags.getLsbD k = false

/-- R27: `jne` reads no flag but Z and no other instruction reads any: states that differ in `F` alone go to states
that agree in everything but `F` and the trace. -/
def Obligations.FlagsAreReadOnlyByJne : Prop :=
  ∀ (i : Instr) (s t : State) (f : Byte), exec i s = .next t →
    (isJne i = true → f.getLsbD (flagBit .z) = s.getFlag .z) →
    ∃ t', exec i { s with flags := f } = .next t' ∧
      t'.regs = t.regs ∧ t'.ip = t.ip ∧ t'.status = t.status ∧ t'.faultRec = t.faultRec ∧ t'.params = t.params

/-- R32, I13: no step reads the FAULT record: states that differ in it alone go to states that agree in everything
but it, and in it too once a fault is taken. -/
def Obligations.FaultRecordIsNeverRead : Prop :=
  ∀ (s t : State) (f : FaultRecord), step s = .next t →
    ∃ t', step { s with faultRec := f } = .next t' ∧ t' = { t with faultRec := t'.faultRec } ∧
      (t.status = .fault → t' = t)

/-! ## MOV (spec/41_mov.md) -/

/-- R98-R101: MOV between registers, and MOV of an immediate to a register, in EXECUTE: the destination holds the
source's value at the width of the instruction, no flag changes, and no other register does. -/
def Obligations.MovToRegisterCompletes : Prop :=
  ∀ s : State, s.params.execMode = .execute →
    (∀ d w x y, (Instr.movRmReg d w (.reg x) y).wf = true →
      ∃ t, exec (.movRmReg d w (.reg x) y) s = .next t ∧
        s.MoveDone t (.movRmReg d w (.reg x) y) w (if d then y else x) (s.get (if d then x else y)).toNat) ∧
    (∀ w x imm, (Instr.movImmRm w (.reg x) imm).wf = true →
      ∃ t, exec (.movImmRm w (.reg x) imm) s = .next t ∧
        s.MoveDone t (.movImmRm w (.reg x) imm) w x (immNumber imm)) ∧
    (∀ w x imm, (Instr.movImmReg w x imm).wf = true →
      ∃ t, exec (.movImmReg w x imm) s = .next t ∧
        s.MoveDone t (.movImmReg w x imm) w x (immNumber imm))

/-- R99: the two encodings of a register-to-register move are equivalent in effect. -/
def Obligations.BothMovDirectionsAgree : Prop :=
  ∀ (s : State) (w : Width) (x y : Reg), ∃ t u,
    exec (.movRmReg false w (.reg x) y) s = .next t ∧ exec (.movRmReg true w (.reg y) x) s = .next u ∧
    t.regs = u.regs ∧ t.flags = u.flags ∧ t.ip = u.ip ∧ t.status = u.status

/-! ## Operands that are not executed (spec/40_execution_cycle.md R92, R93) -/

/-- R92, R102, R103: in EXECUTE an instruction with a memory operand faults with `MemoryOperandUnsupported` at its
own offset and commits nothing else: the forms with a mode byte and `mod != 11`, and the direct-address MOVs. -/
def Obligations.MemoryOperandsFault : Prop :=
  ∀ s : State, s.params.execMode = .execute →
    (∀ d w rm reg, namesMemory rm = true →
      (∃ t, exec (.movRmReg d w rm reg) s = .next t ∧ s.FaultTaken t .memoryOperandUnsupported) ∧
      (∃ t, exec (.addRmReg d w rm reg) s = .next t ∧ s.FaultTaken t .memoryOperandUnsupported) ∧
      (∃ t, exec (.subRmReg d w rm reg) s = .next t ∧ s.FaultTaken t .memoryOperandUnsupported) ∧
      (∃ t, exec (.cmpRmReg d w rm reg) s = .next t ∧ s.FaultTaken t .memoryOperandUnsupported)) ∧
    (∀ w rm imm, namesMemory rm = true → imm ≠ .absent →
      (∃ t, exec (.movImmRm w rm imm) s = .next t ∧ s.FaultTaken t .memoryOperandUnsupported) ∧
      ∀ sx,
        (∃ t, exec (.addImmRm sx w rm imm) s = .next t ∧ s.FaultTaken t .memoryOperandUnsupported) ∧
        (∃ t, exec (.subImmRm sx w rm imm) s = .next t ∧ s.FaultTaken t .memoryOperandUnsupported) ∧
        (∃ t, exec (.cmpImmRm sx w rm imm) s = .next t ∧ s.FaultTaken t .memoryOperandUnsupported)) ∧
    (∀ w addr,
      (∃ t, exec (.movMemAcc w addr) s = .next t ∧ s.FaultTaken t .memoryOperandUnsupported) ∧
      (∃ t, exec (.movAccMem w addr) s = .next t ∧ s.FaultTaken t .memoryOperandUnsupported))

/-- R93, R148, R150: in EXECUTE an `ARITH_IMM_RM` instruction with `s = 1, w = 0` faults with `ImmediateAbsent`,
with a register and with a memory operand alike. -/
def Obligations.AbsentImmediatesFaultFirst : Prop :=
  ∀ (s : State) (rm : Rm) (imm : Imm), s.params.execMode = .execute → imm.fits true .byte = true →
    (∃ t, exec (.addImmRm true .byte rm imm) s = .next t ∧ s.FaultTaken t .immediateAbsent) ∧
    (∃ t, exec (.subImmRm true .byte rm imm) s = .next t ∧ s.FaultTaken t .immediateAbsent) ∧
    (∃ t, exec (.cmpImmRm true .byte rm imm) s = .next t ∧ s.FaultTaken t .immediateAbsent)

/-! ## ADD, SUB and CMP (spec/42_arithmetic.md) -/

/-- R104, R106, R108-R110: ADD to a register in EXECUTE: the sum at the width of the instruction, Z, S and P of the
result in the byte-flags mode, nothing else but `ip`. Both operands are read before the result is written (R163). -/
def Obligations.AddToRegisterCompletes : Prop :=
  ∀ s : State, s.params.execMode = .execute →
    (∀ d w x y, (Instr.addRmReg d w (.reg x) y).wf = true →
      ∃ t, exec (.addRmReg d w (.reg x) y) s = .next t ∧
        s.ArithDone t (.addRmReg d w (.reg x) y) w (if d then y else x)
          ((s.get x).toNat + (s.get y).toNat)) ∧
    (∀ sx w x imm, (Instr.addImmRm sx w (.reg x) imm).wf = true → imm ≠ .absent →
      ∃ t, exec (.addImmRm sx w (.reg x) imm) s = .next t ∧
        s.ArithDone t (.addImmRm sx w (.reg x) imm) w x ((s.get x).toNat + immNumber imm)) ∧
    (∀ w imm, (Instr.addImmAcc w imm).wf = true →
      ∃ t, exec (.addImmAcc w imm) s = .next t ∧
        s.ArithDone t (.addImmAcc w imm) w (accOf w) ((s.get (accOf w)).toNat + immNumber imm))

/-- R104, R106, R111-R113: SUB from a register in EXECUTE: the difference, destination less source. -/
def Obligations.SubFromRegisterCompletes : Prop :=
  ∀ s : State, s.params.execMode = .execute →
    (∀ d w x y, (Instr.subRmReg d w (.reg x) y).wf = true →
      ∃ t, exec (.subRmReg d w (.reg x) y) s = .next t ∧
        s.ArithDone t (.subRmReg d w (.reg x) y) w (if d then y else x)
          ((s.get (if d then y else x)).toNat + 65536 - (s.get (if d then x else y)).toNat)) ∧
    (∀ sx w x imm, (Instr.subImmRm sx w (.reg x) imm).wf = true → imm ≠ .absent →
      ∃ t, exec (.subImmRm sx w (.reg x) imm) s = .next t ∧
        s.ArithDone t (.subImmRm sx w (.reg x) imm) w x ((s.get x).toNat + 65536 - immNumber imm)) ∧
    (∀ w imm, (Instr.subImmAcc w imm).wf = true →
      ∃ t, exec (.subImmAcc w imm) s = .next t ∧
        s.ArithDone t (.subImmAcc w imm) w (accOf w) ((s.get (accOf w)).toNat + 65536 - immNumber imm))

/-- R104, R106, R114-R116: CMP with a register in EXECUTE: the flags of the difference, and no register changes. -/
def Obligations.CmpWithRegisterCompletes : Prop :=
  ∀ s : State, s.params.execMode = .execute →
    (∀ d w x y, (Instr.cmpRmReg d w (.reg x) y).wf = true →
      ∃ t, exec (.cmpRmReg d w (.reg x) y) s = .next t ∧
        s.CompareDone t (.cmpRmReg d w (.reg x) y) w
          ((s.get (if d then y else x)).toNat + 65536 - (s.get (if d then x else y)).toNat)) ∧
    (∀ sx w x imm, (Instr.cmpImmRm sx w (.reg x) imm).wf = true → imm ≠ .absent →
      ∃ t, exec (.cmpImmRm sx w (.reg x) imm) s = .next t ∧
        s.CompareDone t (.cmpImmRm sx w (.reg x) imm) w ((s.get x).toNat + 65536 - immNumber imm)) ∧
    (∀ w imm, (Instr.cmpImmAcc w imm).wf = true →
      ∃ t, exec (.cmpImmAcc w imm) s = .next t ∧
        s.CompareDone t (.cmpImmAcc w imm) w ((s.get (accOf w)).toNat + 65536 - immNumber imm))

/-- R114-R116: CMP sets exactly the flags that SUB sets with the same operands, in every mode and on every path,
and writes no register. -/
def Obligations.CmpSetsTheFlagsOfSub : Prop :=
  ∀ s : State,
    (∀ d w rm reg, ∃ t u, exec (.cmpRmReg d w rm reg) s = .next t ∧ exec (.subRmReg d w rm reg) s = .next u ∧
      t.flags = u.flags ∧ t.ip = u.ip ∧ t.status = u.status ∧ s.SameRegs t) ∧
    (∀ sx w rm imm, ∃ t u, exec (.cmpImmRm sx w rm imm) s = .next t ∧ exec (.subImmRm sx w rm imm) s = .next u ∧
      t.flags = u.flags ∧ t.ip = u.ip ∧ t.status = u.status ∧ s.SameRegs t) ∧
    (∀ w imm, ∃ t u, exec (.cmpImmAcc w imm) s = .next t ∧ exec (.subImmAcc w imm) s = .next u ∧
      t.flags = u.flags ∧ t.ip = u.ip ∧ t.status = u.status ∧ s.SameRegs t)

/-- R117, for SUB and CMP of word registers: Z iff the operands are equal, S iff the difference mod 65536 is
negative as a signed number, P iff the difference is even. -/
def Obligations.WordDifferenceFlags : Prop :=
  ∀ (s : State) (d : Bool) (x y : Reg), s.params.execMode = .execute → x.width = .word → y.width = .word →
    let a := s.get (if d then y else x)
    let b := s.get (if d then x else y)
    ∃ t u, exec (.subRmReg d .word (.reg x) y) s = .next t ∧ exec (.cmpRmReg d .word (.reg x) y) s = .next u ∧
      t.getFlag .z = decide (a = b) ∧ u.getFlag .z = decide (a = b) ∧
      t.getFlag .s = decide (32768 ≤ ((a.toNat : Int) - b.toNat) % 65536) ∧
      u.getFlag .s = decide (32768 ≤ ((a.toNat : Int) - b.toNat) % 65536) ∧
      t.getFlag .p = decide (((a.toNat : Int) - b.toNat) % 2 = 0) ∧
      u.getFlag .p = decide (((a.toNat : Int) - b.toNat) % 2 = 0)

/-- R72: a sign-extended byte gives the numeric result of the word immediate whose high byte is 0xFF (negative) or
0x00 (non-negative). -/
def Obligations.SignExtendedImmediateActsAsItsWord : Prop :=
  ∀ (s : State) (rm : Rm) (b : Byte) (v : Word), v.toNat = immNumber (.imm8 b) →
    (∃ t u, exec (.addImmRm true .word rm (.imm8 b)) s = .next t ∧ exec (.addImmRm false .word rm (.imm16 v)) s = .next u ∧
      t.regs = u.regs ∧ t.flags = u.flags ∧ t.status = u.status) ∧
    (∃ t u, exec (.subImmRm true .word rm (.imm8 b)) s = .next t ∧ exec (.subImmRm false .word rm (.imm16 v)) s = .next u ∧
      t.regs = u.regs ∧ t.flags = u.flags ∧ t.status = u.status) ∧
    (∃ t u, exec (.cmpImmRm true .word rm (.imm8 b)) s = .next t ∧ exec (.cmpImmRm false .word rm (.imm16 v)) s = .next u ∧
      t.regs = u.regs ∧ t.flags = u.flags ∧ t.status = u.status)

/-! ## Jumps and loops (spec/43_control_transfer.md) -/

/-- R119: every member of the family has length 2 and the sign-extended byte as its operand; in EXECUTE each member
but `jne` (`jo jno jb jnb je jbe ja js jns jp jnp jl jnl jle jg loopnz loopz loop jcxz`), and `jne` when Z = 1,
completes by writing `ip <- ip_next` and nothing else: no flag and no register, CX among them. -/
def Obligations.OtherJumpsAndLoopsFallThrough : Prop :=
  (∀ j rel, (Jcc.instr j rel).len = 2 ∧
    (Jcc.instr j rel).record.operands =
      .displacement (if rel.toNat < 128 then (rel.toNat : Int) else (rel.toNat : Int) - 256)) ∧
  ∀ (j : Jcc) (rel : Byte) (s : State), s.params.execMode = .execute → (j = .jne → s.getFlag .z = true) →
    ∃ t, exec (Jcc.instr j rel) s = .next t ∧ s.FellThrough t (Jcc.instr j rel)

/-- R120, R126: `jne` with Z = 0 in EXECUTE. The target is `ip + 2 + rel` as an integer; inside `0..65535` `ip`
takes it, whether or not it is below `L`, and nothing else changes; outside, `IpOutOfRange` is taken and nothing
else is written. -/
def Obligations.TakenJneGoesToItsTarget : Prop :=
  ∀ (s : State) (rel : Byte), s.params.execMode = .execute → s.getFlag .z = false →
    let target : Int := (s.ip.toNat : Int) + 2 + (if rel.toNat < 128 then (rel.toNat : Int) else (rel.toNat : Int) - 256)
    (0 ≤ target → target ≤ 65535 → ∃ t, exec (.jne rel) s = .next t ∧ (t.ip.toNat : Int) = target ∧
      s.SameRegs t ∧ t.flags = s.flags ∧ s.SameControl t ∧ s.Traced t (.jne rel)) ∧
    (target < 0 ∨ 65535 < target → ∃ t, exec (.jne rel) s = .next t ∧ s.FaultTaken t .ipOutOfRange)

/-- R149, R150: `IpOutOfRange` is raised only in EXECUTE and only by a `jne` whose branch is taken; where any other
instruction faults, the kind is `ImmediateAbsent` or `MemoryOperandUnsupported`. -/
def Obligations.ExecuteFaultsByInstruction : Prop :=
  ∀ (i : Instr) (s t : State), exec i s = .next t → s.status = .run → t.status = .fault →
    s.params.execMode = .execute ∧
    (t.faultRec.kind = .ipOutOfRange → isJne i = true ∧ s.getFlag .z = false) ∧
    (isJne i = false → t.faultRec.kind = .immediateAbsent ∨ t.faultRec.kind = .memoryOperandUnsupported)

/-- R96: a `jne` that jumps to itself with Z = 0 never leaves RUN: after every number of steps `ip` is where it was,
and each step emitted one trace record. -/
def Obligations.JneToItselfNeverEnds : Prop :=
  ∀ (s : State) (n : Nat), s.status = .run → s.params.execMode = .execute → s.getFlag .z = false →
    s.fetch s.ip.toNat = some 0x75 → s.fetch (s.ip.toNat + 1) = some 0xFE →
    ∃ t, core.run n s = .next t ∧ t.status = .run ∧ t.ip = s.ip ∧ s.SameRegs t ∧ t.flags = s.flags ∧
      t.trace.length = s.trace.length + n

/-! ## Invariants -/

/-- The invariant (R25, R32, R34, R69, R87, R144-R146) is kept by every step. The canonical form of the buffer is the
model's choice (notes/assumptions/4.md). -/
def Obligations.EveryStepKeepsTheInvariant : Prop :=
  ∀ s t : State, s.Inv → step s = .next t → t.Inv

/-- The invariant holds at reset; the empty buffer of the reset state is the model's choice
(notes/assumptions/3.md). -/
def Obligations.ResetMeetsTheInvariant : Prop := State.reset.Inv

/-- The invariant holds after a reset that supplies a buffer, whatever the buffer (R157, R160). -/
def Obligations.SuppliedResetMeetsTheInvariant : Prop :=
  ∀ (s t : State) (bytes : List Byte) (em : ExecMode) (bf : ByteFlagsMode),
    resetRun s bytes em bf = .next t → t.Inv
end

