-- ==== Sys2Proof/Laws/State.lean ====
section
/-! SUPPORT. The small lemmas of the state's updates: one per field per update, so that no proof unfolds a
record update. -/

namespace Sys2Proof.Machine

/-! ### set -/

@[simp] theorem set_regs (s : State) (r : Reg) (v : Word) : (s.set r v).regs = s.regs.write (regStore r) (mergePart (regPart r) (s.regs.read (regStore r)) v) := rfl
@[simp] theorem set_flags (s : State) (r : Reg) (v : Word) : (s.set r v).flags = s.flags := rfl
@[simp] theorem set_ip (s : State) (r : Reg) (v : Word) : (s.set r v).ip = s.ip := rfl
@[simp] theorem set_status (s : State) (r : Reg) (v : Word) : (s.set r v).status = s.status := rfl
@[simp] theorem set_faultRec (s : State) (r : Reg) (v : Word) : (s.set r v).faultRec = s.faultRec := rfl
@[simp] theorem set_params (s : State) (r : Reg) (v : Word) : (s.set r v).params = s.params := rfl
@[simp] theorem set_trace (s : State) (r : Reg) (v : Word) : (s.set r v).trace = s.trace := rfl

/-! ### moveIpBy -/

@[simp] theorem moveIpBy_regs (s : State) (n : Int) : (s.moveIpBy n).regs = s.regs := rfl
@[simp] theorem moveIpBy_flags (s : State) (n : Int) : (s.moveIpBy n).flags = s.flags := rfl
@[simp] theorem moveIpBy_ip (s : State) (n : Int) : (s.moveIpBy n).ip = unsigned16 ((s.ip.toNat : Int) + n) := rfl
@[simp] theorem moveIpBy_status (s : State) (n : Int) : (s.moveIpBy n).status = s.status := rfl
@[simp] theorem moveIpBy_faultRec (s : State) (n : Int) : (s.moveIpBy n).faultRec = s.faultRec := rfl
@[simp] theorem moveIpBy_params (s : State) (n : Int) : (s.moveIpBy n).params = s.params := rfl
@[simp] theorem moveIpBy_trace (s : State) (n : Int) : (s.moveIpBy n).trace = s.trace := rfl

/-! ### setFlagsFromResult -/

@[simp] theorem setFlagsFromResult_regs (s : State) (res : Int) : (s.setFlagsFromResult res).regs = s.regs := rfl
@[simp] theorem setFlagsFromResult_flags (s : State) (res : Int) : (s.setFlagsFromResult res).flags = flagsFrom s.flags res := rfl
@[simp] theorem setFlagsFromResult_ip (s : State) (res : Int) : (s.setFlagsFromResult res).ip = s.ip := rfl
@[simp] theorem setFlagsFromResult_status (s : State) (res : Int) : (s.setFlagsFromResult res).status = s.status := rfl
@[simp] theorem setFlagsFromResult_faultRec (s : State) (res : Int) : (s.setFlagsFromResult res).faultRec = s.faultRec := rfl
@[simp] theorem setFlagsFromResult_params (s : State) (res : Int) : (s.setFlagsFromResult res).params = s.params := rfl
@[simp] theorem setFlagsFromResult_trace (s : State) (res : Int) : (s.setFlagsFromResult res).trace = s.trace := rfl

/-! ### takeFault -/

@[simp] theorem takeFault_regs (s : State) (k : FaultKind) : (s.takeFault k).regs = s.regs := rfl
@[simp] theorem takeFault_flags (s : State) (k : FaultKind) : (s.takeFault k).flags = s.flags := rfl
@[simp] theorem takeFault_ip (s : State) (k : FaultKind) : (s.takeFault k).ip = s.ip := rfl
@[simp] theorem takeFault_status (s : State) (k : FaultKind) : (s.takeFault k).status = .fault := rfl
@[simp] theorem takeFault_faultRec (s : State) (k : FaultKind) : (s.takeFault k).faultRec = { kind := k, atIp := s.ip } := rfl
@[simp] theorem takeFault_params (s : State) (k : FaultKind) : (s.takeFault k).params = s.params := rfl
@[simp] theorem takeFault_trace (s : State) (k : FaultKind) : (s.takeFault k).trace = s.trace := rfl

/-! ### takeHalt -/

@[simp] theorem takeHalt_regs (s : State) : (s.takeHalt).regs = s.regs := rfl
@[simp] theorem takeHalt_flags (s : State) : (s.takeHalt).flags = s.flags := rfl
@[simp] theorem takeHalt_ip (s : State) : (s.takeHalt).ip = s.ip := rfl
@[simp] theorem takeHalt_status (s : State) : (s.takeHalt).status = .halt := rfl
@[simp] theorem takeHalt_faultRec (s : State) : (s.takeHalt).faultRec = s.faultRec := rfl
@[simp] theorem takeHalt_params (s : State) : (s.takeHalt).params = s.params := rfl
@[simp] theorem takeHalt_trace (s : State) : (s.takeHalt).trace = s.trace := rfl

/-! ### emit -/

@[simp] theorem emit_regs (s : State) (t : TraceRecord) : (s.emit t).regs = s.regs := rfl
@[simp] theorem emit_flags (s : State) (t : TraceRecord) : (s.emit t).flags = s.flags := rfl
@[simp] theorem emit_ip (s : State) (t : TraceRecord) : (s.emit t).ip = s.ip := rfl
@[simp] theorem emit_status (s : State) (t : TraceRecord) : (s.emit t).status = s.status := rfl
@[simp] theorem emit_faultRec (s : State) (t : TraceRecord) : (s.emit t).faultRec = s.faultRec := rfl
@[simp] theorem emit_params (s : State) (t : TraceRecord) : (s.emit t).params = s.params := rfl
@[simp] theorem emit_trace (s : State) (t : TraceRecord) : (s.emit t).trace = s.trace ++ [t] := rfl

/-! ### The optional writes of phase two -/

@[simp] theorem writeReg_flags (s : State) (x : Option (Reg × Word)) : (s.writeReg x).flags = s.flags := by cases x <;> rfl
@[simp] theorem writeReg_ip (s : State) (x : Option (Reg × Word)) : (s.writeReg x).ip = s.ip := by cases x <;> rfl
@[simp] theorem writeReg_status (s : State) (x : Option (Reg × Word)) : (s.writeReg x).status = s.status := by cases x <;> rfl
@[simp] theorem writeReg_faultRec (s : State) (x : Option (Reg × Word)) : (s.writeReg x).faultRec = s.faultRec := by cases x <;> rfl
@[simp] theorem writeReg_params (s : State) (x : Option (Reg × Word)) : (s.writeReg x).params = s.params := by cases x <;> rfl
@[simp] theorem writeReg_trace (s : State) (x : Option (Reg × Word)) : (s.writeReg x).trace = s.trace := by cases x <;> rfl
@[simp] theorem writeFlags_regs (s : State) (x : Option Int) : (s.writeFlags x).regs = s.regs := by cases x <;> rfl
@[simp] theorem writeFlags_ip (s : State) (x : Option Int) : (s.writeFlags x).ip = s.ip := by cases x <;> rfl
@[simp] theorem writeFlags_status (s : State) (x : Option Int) : (s.writeFlags x).status = s.status := by cases x <;> rfl
@[simp] theorem writeFlags_faultRec (s : State) (x : Option Int) : (s.writeFlags x).faultRec = s.faultRec := by cases x <;> rfl
@[simp] theorem writeFlags_params (s : State) (x : Option Int) : (s.writeFlags x).params = s.params := by cases x <;> rfl
@[simp] theorem writeFlags_trace (s : State) (x : Option Int) : (s.writeFlags x).trace = s.trace := by cases x <;> rfl
@[simp] theorem writeJump_regs (s : State) (x : Option Int) : (s.writeJump x).regs = s.regs := by cases x <;> rfl
@[simp] theorem writeJump_flags (s : State) (x : Option Int) : (s.writeJump x).flags = s.flags := by cases x <;> rfl
@[simp] theorem writeJump_status (s : State) (x : Option Int) : (s.writeJump x).status = s.status := by cases x <;> rfl
@[simp] theorem writeJump_faultRec (s : State) (x : Option Int) : (s.writeJump x).faultRec = s.faultRec := by cases x <;> rfl
@[simp] theorem writeJump_params (s : State) (x : Option Int) : (s.writeJump x).params = s.params := by cases x <;> rfl
@[simp] theorem writeJump_trace (s : State) (x : Option Int) : (s.writeJump x).trace = s.trace := by cases x <;> rfl

@[simp] theorem writeReg_some (s : State) (r : Reg) (v : Word) : s.writeReg (some (r, v)) = s.set r v := rfl
@[simp] theorem writeReg_none (s : State) : s.writeReg none = s := rfl
@[simp] theorem writeFlags_some (s : State) (res : Int) : s.writeFlags (some res) = s.setFlagsFromResult res := rfl
@[simp] theorem writeFlags_none (s : State) : s.writeFlags none = s := rfl
@[simp] theorem writeJump_some (s : State) (rel : Int) : s.writeJump (some rel) = s.moveIpBy rel := rfl
@[simp] theorem writeJump_none (s : State) : s.writeJump none = s := rfl

/-! ### apply, commit and list -/

@[simp] theorem apply_status (s : State) (n : Nat) (e : Effects) : (s.apply n e).status = s.status := by
  simp [State.apply]
@[simp] theorem apply_faultRec (s : State) (n : Nat) (e : Effects) : (s.apply n e).faultRec = s.faultRec := by
  simp [State.apply]
@[simp] theorem apply_params (s : State) (n : Nat) (e : Effects) : (s.apply n e).params = s.params := by
  simp [State.apply]
@[simp] theorem apply_trace (s : State) (n : Nat) (e : Effects) : (s.apply n e).trace = s.trace := by
  simp [State.apply]
@[simp] theorem apply_ip (s : State) (n : Nat) (e : Effects) :
    (s.apply n e).ip = ((s.moveIpBy n).writeJump e.jump).ip := by
  simp [State.apply]
@[simp] theorem apply_regs (s : State) (n : Nat) (e : Effects) : (s.apply n e).regs = (s.writeReg e.reg).regs := by
  rcases e with ⟨_ | ⟨r, v⟩, fi, jp⟩ <;> simp [State.apply]
@[simp] theorem apply_flags (s : State) (n : Nat) (e : Effects) :
    (s.apply n e).flags = (s.writeFlags e.flagInput).flags := by
  rcases e with ⟨_ | ⟨r, v⟩, _ | fi, jp⟩ <;> simp [State.apply]

@[simp] theorem commit_regs (s : State) (i : Instr) (e : Effects) :
    (s.commit i e).regs = (s.apply i.len e).regs := rfl
@[simp] theorem commit_flags (s : State) (i : Instr) (e : Effects) :
    (s.commit i e).flags = (s.apply i.len e).flags := rfl
@[simp] theorem commit_ip (s : State) (i : Instr) (e : Effects) :
    (s.commit i e).ip = (s.apply i.len e).ip := rfl
@[simp] theorem commit_status (s : State) (i : Instr) (e : Effects) : (s.commit i e).status = s.status := by
  simp [State.commit]
@[simp] theorem commit_faultRec (s : State) (i : Instr) (e : Effects) : (s.commit i e).faultRec = s.faultRec := by
  simp [State.commit]
@[simp] theorem commit_params (s : State) (i : Instr) (e : Effects) : (s.commit i e).params = s.params := by
  simp [State.commit]
@[simp] theorem commit_trace (s : State) (i : Instr) (e : Effects) : (s.commit i e).trace =
    s.trace ++ [traceRecord s i.record (some (resultValues s (s.apply i.len e) e))] := by
  simp [State.commit]
@[simp] theorem list_regs (s : State) (i : Instr) : (s.list i).regs = s.regs := rfl
@[simp] theorem list_flags (s : State) (i : Instr) : (s.list i).flags = s.flags := rfl
@[simp] theorem list_ip (s : State) (i : Instr) :
    (s.list i).ip = unsigned16 ((s.ip.toNat : Int) + i.len) := rfl
@[simp] theorem list_status (s : State) (i : Instr) : (s.list i).status = s.status := rfl
@[simp] theorem list_faultRec (s : State) (i : Instr) : (s.list i).faultRec = s.faultRec := rfl
@[simp] theorem list_params (s : State) (i : Instr) : (s.list i).params = s.params := rfl
@[simp] theorem list_trace (s : State) (i : Instr) :
    (s.list i).trace = s.trace ++ [traceRecord s i.record none] := rfl

/-! ### get, fetch and get_flag read one field each -/

theorem get_congr {s t : State} (h : t.regs = s.regs) (r : Reg) : t.get r = s.get r := by
  simp [State.get, h]

theorem fetch_congr {s t : State} (h : t.params = s.params) (p : Nat) : t.fetch p = s.fetch p := by
  simp [State.fetch, h]

theorem getFlag_congr {s t : State} (h : t.flags = s.flags) (f : Flag) : t.getFlag f = s.getFlag f := by
  simp [State.getFlag, h]

theorem sameProgram_of_params {s t : State} (h : t.params = s.params) : s.SameProgram t :=
  ⟨h, fetch_congr h⟩

end Sys2Proof.Machine
end

