-- ==== Sys2Proof/Laws/Registers.lean ====
section
/-! SUPPORT. The laws of the register file and of the flags register: what a read gives after a write. -/

namespace Sys2Proof.Machine

theorem regsRead_write_same (rf : RegFile) (x : Store) (v : Word) : (rf.write x v).read x = v := by
  cases x <;> rfl

theorem regsRead_write_other (rf : RegFile) {x y : Store} (v : Word) (h : y ≠ x) : (rf.write x v).read y = rf.read y := by
  cases x <;> cases y <;> first | rfl | exact absurd rfl h

/-- The bits of a word assembled from two bytes (R37). -/
theorem le16_bit (lo hi : Byte) (k : Nat) :
    (le16 lo hi).getLsbD k = if k < 8 then lo.getLsbD k else hi.getLsbD (k - 8) := by
  unfold le16
  exact (BitVec.getLsbD_append (x := hi) (y := lo) (i := k)).trans (by split <;> simp_all)

theorem lowByte_bit (v : Word) (k : Nat) : (lowByte v).getLsbD k = (decide (k < 8) && v.getLsbD k) := by
  simp [lowByte]

theorem highByte_bit (v : Word) (k : Nat) : (highByte v).getLsbD k = (decide (k < 8) && v.getLsbD (8 + k)) := by
  simp [highByte]

@[simp] theorem lowByte_le16 (lo hi : Byte) : lowByte (le16 lo hi) = lo := by
  apply BitVec.eq_of_getLsbD_eq
  intro k hk
  rw [lowByte_bit, le16_bit, if_pos hk, decide_eq_true hk, Bool.true_and]

@[simp] theorem highByte_le16 (lo hi : Byte) : highByte (le16 lo hi) = hi := by
  apply BitVec.eq_of_getLsbD_eq
  intro k hk
  rw [highByte_bit, le16_bit, if_neg (by omega), decide_eq_true hk, Bool.true_and, Nat.add_sub_cancel_left]

@[simp] theorem le16_low_high (v : Word) : le16 (lowByte v) (highByte v) = v := by
  apply BitVec.eq_of_getLsbD_eq
  intro k hk
  rw [le16_bit, lowByte_bit, highByte_bit]
  split
  · next h => rw [decide_eq_true h, Bool.true_and]
  · next h => rw [decide_eq_true (by omega), Bool.true_and, Nat.add_sub_cancel' (by omega)]

/-- What the written name itself then shows (R19, R20). -/
theorem partOf_mergePart (p : Part) (old v : Word) :
    partOf p (mergePart p old v) = match p with | .whole => v | .low => zext16 (lowByte v) | .high => zext16 (lowByte v) := by
  cases p <;> simp [partOf, mergePart]

/-- `get` of the name just set: a byte name took `v[7:0]` (R20). -/
theorem get_set_same (s : State) (r : Reg) (v : Word) :
    (s.set r v).get r = match r.width with | .word => v | .byte => zext16 (lowByte v) := by
  rw [State.get, set_regs, regsRead_write_same, partOf_mergePart]
  cases r <;> rfl

/-- `get` of a name that shares no bit with the one set. -/
theorem get_set_disjoint (s : State) (r q : Reg) (v : Word) (h : regDisjoint q r = true) :
    (s.set r v).get q = s.get q := by
  rw [State.get, State.get, set_regs]
  by_cases hs : regStore q = regStore r
  · rw [hs, regsRead_write_same]
    simp only [regDisjoint, hs] at h
    rcases (by simpa using h : _ ∧ _ ∨ _ ∧ _) with ⟨h1, h2⟩ | ⟨h1, h2⟩ <;> rw [h1, h2] <;> simp [partOf, mergePart]
  · rw [regsRead_write_other _ _ hs]

@[simp] theorem unsigned16_signed16 (v : Word) : unsigned16 (signed16 v) = v := by
  simp [unsigned16, signed16]

theorem unsigned16_toNat (x : Int) (h0 : 0 ≤ x) (h1 : x ≤ 65535) : ((unsigned16 x).toNat : Int) = x := by
  simp only [unsigned16, BitVec.toNat_ofInt]
  omega

/-- A flag just put reads as put. -/
theorem putFlag_same (F : Byte) (f : Flag) (v : Bool) : (putFlag F f v).getLsbD (flagBit f) = v := by
  cases f <;> cases v <;> simp [putFlag, flagBit]

/-- Every other bit stays. -/
theorem putFlag_other (F : Byte) (f : Flag) (v : Bool) (k : Nat) (h : k ≠ flagBit f) :
    (putFlag F f v).getLsbD k = F.getLsbD k := by
  have h' : flagBit f ≠ k := fun e => h e.symm
  by_cases hk : k < 8
  · cases v <;> simp [putFlag, BitVec.getLsbD_or, BitVec.getLsbD_and, BitVec.getLsbD_not, BitVec.getLsbD_twoPow, h', hk,
      -BitVec.getElem_or, -BitVec.getElem_and, -BitVec.getLsbD_eq_getElem]
  · have h8 : 8 ≤ k := by omega
    rw [BitVec.getLsbD_of_ge _ _ h8, BitVec.getLsbD_of_ge _ _ h8]

/-- Every bit of `F` after `set_flags_from_result` (R105). -/
theorem flagsFrom_bit (F : Byte) (res : Int) (k : Nat) :
    (flagsFrom F res).getLsbD k =
      if k = 3 then decide (res % 2 = 0) else if k = 2 then decide (res < 0)
      else if k = 1 then decide (res = 0) else F.getLsbD k := by
  unfold flagsFrom
  by_cases h3 : k = 3
  · subst h3; exact putFlag_same _ .p _
  · rw [putFlag_other _ _ _ _ h3, if_neg h3]
    by_cases h2 : k = 2
    · subst h2; exact putFlag_same _ .s _
    · rw [putFlag_other _ _ _ _ h2, if_neg h2]
      by_cases h1 : k = 1
      · subst h1; exact putFlag_same _ .z _
      · rw [putFlag_other _ _ _ _ h1, if_neg h1]

/-- C, O and `F[7:5]` stay (R25, R105). -/
theorem flagsFrom_unwritten (F : Byte) (res : Int) : flagsFrom F res &&& unwrittenFlags = F &&& unwrittenFlags := by
  apply BitVec.eq_of_getLsbD_eq
  intro k hk
  rw [BitVec.getLsbD_and, BitVec.getLsbD_and, flagsFrom_bit]
  by_cases h3 : k = 3
  · subst h3; simp [unwrittenFlags]
  · by_cases h2 : k = 2
    · subst h2; simp [unwrittenFlags]
    · by_cases h1 : k = 1
      · subst h1; simp [unwrittenFlags]
      · rw [if_neg h3, if_neg h2, if_neg h1]

end Sys2Proof.Machine
end

