-- ==== Sys2Proof/Laws/Exec.lean ====
section
/-! SUPPORT. What the shared operations of the execution cycle can do, said once: `exec` is `perform` over
phase one, `perform` lists, takes a fault or commits, and a step halts, takes a decode fault or runs `exec`. -/

namespace Sys2Proof.Machine

/-- Phase one of every instruction (R9, R91). -/
def phaseOne (i : Instr) (s : State) : Except FaultKind Effects :=
  match i with
  | .movRmReg d _ rm reg => s.movEffects (dstOf d rm reg) (.rm (srcOf d rm reg))
  | .movImmRm _ rm imm => s.movEffects rm (.imm imm)
  | .movImmReg _ reg imm => s.movEffects (.reg reg) (.imm imm)
  | .movMemAcc w addr => s.movEffects (.reg (accOf w)) (.rm (.direct addr))
  | .movAccMem w addr => s.movEffects (.direct addr) (.rm (.reg (accOf w)))
  | .addRmReg d w rm reg => s.aluEffects .add w (dstOf d rm reg) (.rm (srcOf d rm reg))
  | .addImmRm _ w rm imm => s.aluEffects .add w rm (.imm imm)
  | .addImmAcc w imm => s.aluEffects .add w (.reg (accOf w)) (.imm imm)
  | .subRmReg d w rm reg => s.aluEffects .sub w (dstOf d rm reg) (.rm (srcOf d rm reg))
  | .subImmRm _ w rm imm => s.aluEffects .sub w rm (.imm imm)
  | .subImmAcc w imm => s.aluEffects .sub w (.reg (accOf w)) (.imm imm)
  | .cmpRmReg d w rm reg => s.cmpEffects w (dstOf d rm reg) (.rm (srcOf d rm reg))
  | .cmpImmRm _ w rm imm => s.cmpEffects w rm (.imm imm)
  | .cmpImmAcc w imm => s.cmpEffects w (.reg (accOf w)) (.imm imm)
  | .jne rel => if s.getFlag .z then noEffects else s.jumpEffects (relOf rel)
  | .jo _ | .jno _ | .jb _ | .jnb _ | .je _ | .jbe _ | .ja _ | .js _ | .jns _ | .jp _ | .jnp _ | .jl _ | .jnl _ | .jle _ | .jg _ | .loopnz _ | .loopz _ | .loop _ | .jcxz _ => noEffects

/-- Every meaning is `perform` over its phase one. -/
theorem exec_eq_perform (i : Instr) (s : State) : exec i s = perform i s (phaseOne i s) := by
  cases i <;> rfl

/-- In `DECODE_ONLY` an instruction is listed (R90). -/
theorem perform_decodeOnly {s : State} (h : s.params.execMode = .decodeOnly) (i : Instr)
    (p : Except FaultKind Effects) : perform i s p = .next (s.list i) := by
  simp [perform, h]

/-- In `EXECUTE` a fault of phase one is taken (R146). -/
theorem perform_error {s : State} (h : s.params.execMode = .execute) (i : Instr) (k : FaultKind) :
    perform i s (.error k) = .next (s.takeFault k) := by
  simp [perform, h]

/-- In `EXECUTE` the effects of phase one are committed (R94). -/
theorem perform_ok {s : State} (h : s.params.execMode = .execute) (i : Instr) (e : Effects) :
    perform i s (.ok e) = .next (s.commit i e) := by
  simp [perform, h]

/-- Everything `perform` can do. -/
theorem perform_cases {i : Instr} {s t : State} {p : Except FaultKind Effects} (h : perform i s p = .next t) :
    (s.params.execMode = .decodeOnly ∧ t = s.list i) ∨
    (s.params.execMode = .execute ∧ ∃ k, p = .error k ∧ t = s.takeFault k) ∨
    (s.params.execMode = .execute ∧ ∃ e, p = .ok e ∧ t = s.commit i e) := by
  cases hm : s.params.execMode with
  | decodeOnly => rw [perform_decodeOnly hm] at h; cases h; exact .inl ⟨rfl, rfl⟩
  | execute =>
    cases p with
    | error k => rw [perform_error hm] at h; cases h; exact .inr (.inl ⟨rfl, k, rfl, rfl⟩)
    | ok e => rw [perform_ok hm] at h; cases h; exact .inr (.inr ⟨rfl, e, rfl, rfl⟩)

/-- The operands of a form whose destination is a register. -/
theorem operands_reg (s : State) (r : Reg) (src : Source) :
    s.operands (.reg r) src = match s.sourceValue src with | .error k => .error k | .ok v => .ok (r, v) := rfl

/-- The operands come out only of a register destination and a source that has a value. -/
theorem operands_cases {s : State} {dst : Rm} {src : Source} {x : Reg × Word} (h : s.operands dst src = .ok x) :
    dst = .reg x.1 ∧ s.sourceValue src = .ok x.2 := by
  unfold State.operands at h
  split at h
  · cases h
  · next v hv =>
    split at h
    · cases h
    · next r hr =>
      cases h
      cases dst with
      | reg q => cases hr; exact ⟨rfl, hv⟩
      | mem e d => cases hr
      | direct a => cases hr

/-- The only faults of the operand checks (R92, R93). -/
theorem operands_error {s : State} {dst : Rm} {src : Source} {k : FaultKind} (h : s.operands dst src = .error k) :
    k = .immediateAbsent ∨ k = .memoryOperandUnsupported := by
  unfold State.operands at h
  split at h
  · next k' hk =>
    cases h
    unfold State.sourceValue at hk
    split at hk
    · cases hk
    · cases hk; exact .inr rfl
    · cases hk; exact .inr rfl
    · split at hk
      · cases hk
      · cases hk; exact .inl rfl
  · split at h
    · next k' hk =>
      cases h
      cases dst with
      | reg q => cases hk
      | mem e d => cases hk; exact .inr rfl
      | direct a => cases hk; exact .inr rfl
    · cases h

theorem movEffects_cases {s : State} {dst : Rm} {src : Source} {e : Effects} (h : s.movEffects dst src = .ok e) :
    ∃ r v, s.operands dst src = .ok (r, v) ∧ e = { reg := some (r, v) } := by
  unfold State.movEffects at h
  split at h
  · cases h
  · next r v hv => cases h; exact ⟨r, v, hv, rfl⟩

theorem aluEffects_cases {s : State} {op : AluOp} {w : Width} {dst : Rm} {src : Source} {e : Effects}
    (h : s.aluEffects op w dst src = .ok e) :
    ∃ r v, s.operands dst src = .ok (r, v) ∧
      e = { reg := some (r, aluResult op w (s.get r) v),
            flagInput := some (flagInput s.params.byteFlags op w (s.get r) v) } := by
  unfold State.aluEffects at h
  split at h
  · cases h
  · next r v hv => cases h; exact ⟨r, v, hv, rfl⟩

theorem cmpEffects_cases {s : State} {w : Width} {dst : Rm} {src : Source} {e : Effects}
    (h : s.cmpEffects w dst src = .ok e) :
    ∃ r v, s.operands dst src = .ok (r, v) ∧
      e = { flagInput := some (flagInput s.params.byteFlags .sub w (s.get r) v) } := by
  unfold State.cmpEffects at h
  split at h
  · cases h
  · next r v hv => cases h; exact ⟨r, v, hv, rfl⟩

theorem jumpEffects_cases {s : State} {rel : Int} {e : Effects} (h : s.jumpEffects rel = .ok e) :
    0 ≤ s.jumpTarget rel ∧ s.jumpTarget rel ≤ 65535 ∧ e = { jump := some rel } := by
  unfold State.jumpEffects at h
  split at h
  · cases h
  · next hr => cases h; exact ⟨by omega, by omega, rfl⟩

/-- Everything a step can do from a state in which one is enabled (R87, R88, R91). -/
theorem step_cases {s t : State} (h : step s = .next t) :
    s.status = .run ∧
    ((s.params.len.val ≤ s.ip.toNat ∧ t = s.takeHalt) ∨
     (s.ip.toNat < s.params.len.val ∧ ∃ k, decode s.window = .error k ∧ t = s.takeFault (decodeFaultKind k)) ∨
     (s.ip.toNat < s.params.len.val ∧ ∃ i, decode s.window = .ok i ∧ exec i s = .next t)) := by
  unfold step at h
  split at h
  · cases h
  · cases h
  · next hr =>
    refine ⟨hr, ?_⟩
    split at h
    · next hl => cases h; exact .inl ⟨hl, rfl⟩
    · next hl =>
      have hl' : s.ip.toNat < s.params.len.val := by omega
      split at h
      · next k hk => cases h; exact .inr (.inl ⟨hl', k, hk, rfl⟩)
      · next i hi => exact .inr (.inr ⟨hl', i, hi, h⟩)

/-- A taken fault is precise (R146). -/
theorem takeFault_precise (s : State) (k : FaultKind) : s.FaultTaken (s.takeFault k) k :=
  ⟨rfl, rfl, fun _ => rfl, rfl, rfl, sameProgram_of_params rfl, rfl⟩

/-- The sequential value of `ip`, where the instruction lies in the buffer (R89). -/
theorem sequential_ip {s : State} {i : Instr} (h : s.fits i) :
    (unsigned16 ((s.ip.toNat : Int) + i.len)).toNat = s.ip.toNat + i.len := by
  have hl := s.params.len.isLt
  unfold State.fits at h
  have := unsigned16_toNat ((s.ip.toNat : Int) + i.len) (by omega) (by omega)
  omega

/-- A listed instruction advances and writes nothing else (R90). -/
theorem list_advanced (s : State) (i : Instr) : s.Advanced (s.list i) i :=
  ⟨sequential_ip, ⟨rfl, rfl, sameProgram_of_params rfl⟩, _, rfl, rfl, rfl⟩

/-- A committed instruction that does not jump advances (R94). -/
theorem commit_advanced (s : State) (i : Instr) (e : Effects) (h : e.jump = none) : s.Advanced (s.commit i e) i := by
  refine ⟨fun hf => ?_, ⟨by simp, by simp, sameProgram_of_params (by simp)⟩, _, commit_trace s i e, rfl, rfl⟩
  rw [commit_ip, apply_ip, h, writeJump_none, moveIpBy_ip]
  exact sequential_ip hf

/-- A committed jump stands at its target (R120). -/
theorem commit_jump_ip {s : State} {i : Instr} {rel : Int} (hl : i.len = 2) (h0 : 0 ≤ s.jumpTarget rel)
    (h1 : s.jumpTarget rel ≤ 65535) : ((s.commit i { jump := some rel }).ip.toNat : Int) = s.jumpTarget rel := by
  rw [commit_ip, apply_ip, writeJump_some, moveIpBy_ip, moveIpBy_ip, hl]
  unfold State.jumpTarget at *
  simp only [unsigned16, BitVec.toNat_ofInt]
  omega

/-- The window holds at most the bytes to the end of the buffer. -/
theorem window_length (s : State) : s.window.length = min maxInstrLen (s.params.len.val - s.ip.toNat) := by
  simp [State.window]

/-- Everything `exec` can do: list, take a fault of phase one, or commit its effects. -/
theorem exec_cases {i : Instr} {s t : State} (h : exec i s = .next t) :
    (s.params.execMode = .decodeOnly ∧ t = s.list i) ∨
    (s.params.execMode = .execute ∧ ∃ k, phaseOne i s = .error k ∧ t = s.takeFault k) ∨
    (s.params.execMode = .execute ∧ ∃ e, phaseOne i s = .ok e ∧ t = s.commit i e) :=
  perform_cases (exec_eq_perform i s ▸ h)

theorem exec_params {i : Instr} {s t : State} (h : exec i s = .next t) : t.params = s.params := by
  obtain ⟨-, rfl⟩ | ⟨-, k, -, rfl⟩ | ⟨-, e, -, rfl⟩ := exec_cases h <;> simp

theorem step_params {s t : State} (h : step s = .next t) : t.params = s.params := by
  obtain ⟨-, ⟨-, rfl⟩ | ⟨-, k, -, rfl⟩ | ⟨-, i, -, hi⟩⟩ := step_cases h
  · rfl
  · rfl
  · exact exec_params hi

theorem movEffects_error {s : State} {dst : Rm} {src : Source} {k : FaultKind}
    (h : s.movEffects dst src = .error k) : s.operands dst src = .error k := by
  unfold State.movEffects at h
  split at h
  · next hk => cases h; exact hk
  · cases h

theorem aluEffects_error {s : State} {op : AluOp} {w : Width} {dst : Rm} {src : Source} {k : FaultKind}
    (h : s.aluEffects op w dst src = .error k) : s.operands dst src = .error k := by
  unfold State.aluEffects at h
  split at h
  · next hk => cases h; exact hk
  · cases h

theorem cmpEffects_error {s : State} {w : Width} {dst : Rm} {src : Source} {k : FaultKind}
    (h : s.cmpEffects w dst src = .error k) : s.operands dst src = .error k := by
  unfold State.cmpEffects at h
  split at h
  · next hk => cases h; exact hk
  · cases h

/-- The faults of phase one (R92, R93, R120). -/
theorem phaseOne_error {i : Instr} {s : State} {k : FaultKind} (h : phaseOne i s = .error k) :
    k = .immediateAbsent ∨ k = .memoryOperandUnsupported ∨
    (k = .ipOutOfRange ∧ isJne i = true ∧ s.getFlag .z = false) := by
  have hops : ∀ {dst src}, s.operands dst src = .error k → k = .immediateAbsent ∨ k = .memoryOperandUnsupported ∨
      (k = .ipOutOfRange ∧ isJne i = true ∧ s.getFlag .z = false) := fun ho => (operands_error ho).imp_right .inl
  cases i <;> simp only [phaseOne] at h
  case jne rel =>
    split at h
    · cases h
    · next hz =>
      unfold State.jumpEffects at h
      split at h
      · cases h; exact .inr (.inr ⟨rfl, rfl, by simpa using hz⟩)
      · cases h
  all_goals first
    | exact hops (movEffects_error h)
    | exact hops (aluEffects_error h)
    | exact hops (cmpEffects_error h)
    | cases h

/-- What the effects of phase one write: the register of `writtenReg`, flags for ADD, SUB and CMP, a jump for
`jne` alone. -/
theorem phaseOne_ok {i : Instr} {s : State} {e : Effects} (h : phaseOne i s = .ok e) :
    e.reg.map (·.1) = writtenReg i ∧ e.flagInput.isSome = writesFlags i ∧ (isJne i = false → e.jump = none) := by
  have hm : ∀ {dst src}, s.movEffects dst src = .ok e → ∃ r v, dst = .reg r ∧ e = { reg := some (r, v) } := fun h => by
    obtain ⟨r, v, ho, rfl⟩ := movEffects_cases h
    exact ⟨r, v, (operands_cases ho).1, rfl⟩
  have ha : ∀ {op w dst src}, s.aluEffects op w dst src = .ok e →
      ∃ r v f, dst = .reg r ∧ e = { reg := some (r, v), flagInput := some f } := fun h => by
    obtain ⟨r, v, ho, rfl⟩ := aluEffects_cases h
    exact ⟨r, _, _, (operands_cases ho).1, rfl⟩
  have hc : ∀ {w dst src}, s.cmpEffects w dst src = .ok e → ∃ f, e = { flagInput := some f } := fun h => by
    obtain ⟨r, v, -, rfl⟩ := cmpEffects_cases h
    exact ⟨_, rfl⟩
  cases i <;> simp only [phaseOne] at h
  case jne rel =>
    split at h
    · cases h; exact ⟨rfl, rfl, fun _ => rfl⟩
    · obtain ⟨-, -, rfl⟩ := jumpEffects_cases h
      exact ⟨rfl, rfl, fun hj => by cases hj⟩
  case movRmReg => obtain ⟨r, v, hd, rfl⟩ := hm h; simp [writtenReg, writesFlags, hd]
  case movImmRm => obtain ⟨r, v, rfl, rfl⟩ := hm h; simp [writtenReg, writesFlags]
  case movImmReg => obtain ⟨r, v, hd, rfl⟩ := hm h; cases hd; simp [writtenReg, writesFlags]
  case movMemAcc => obtain ⟨r, v, hd, rfl⟩ := hm h; cases hd; simp [writtenReg, writesFlags]
  case movAccMem => obtain ⟨r, v, hd, rfl⟩ := hm h; cases hd
  case addRmReg => obtain ⟨r, v, f, hd, rfl⟩ := ha h; simp [writtenReg, writesFlags, hd]
  case addImmRm => obtain ⟨r, v, f, rfl, rfl⟩ := ha h; simp [writtenReg, writesFlags]
  case addImmAcc => obtain ⟨r, v, f, hd, rfl⟩ := ha h; cases hd; simp [writtenReg, writesFlags]
  case subRmReg => obtain ⟨r, v, f, hd, rfl⟩ := ha h; simp [writtenReg, writesFlags, hd]
  case subImmRm => obtain ⟨r, v, f, rfl, rfl⟩ := ha h; simp [writtenReg, writesFlags]
  case subImmAcc => obtain ⟨r, v, f, hd, rfl⟩ := ha h; cases hd; simp [writtenReg, writesFlags]
  case cmpRmReg => obtain ⟨f, rfl⟩ := hc h; simp [writtenReg, writesFlags]
  case cmpImmRm => obtain ⟨f, rfl⟩ := hc h; simp [writtenReg, writesFlags]
  case cmpImmAcc => obtain ⟨f, rfl⟩ := hc h; simp [writtenReg, writesFlags]
  all_goals (cases h; exact ⟨rfl, rfl, fun _ => rfl⟩)

/-- The registers after phase two are those after the register write. -/
theorem apply_get (s : State) (n : Nat) (e : Effects) (r : Reg) : (s.apply n e).get r = (s.writeReg e.reg).get r :=
  get_congr (apply_regs s n e) r

end Sys2Proof.Machine
end

