-- ==== Sys2Proof/Laws/Decode.lean ====
section
/-! SUPPORT. The laws of the decoder's parts: the fields of a mode byte, the tables both ways, the length of an
r/m operand, and what a successful decode says about the bytes that are there. -/

namespace Sys2Proof.Machine

/-! ## Fields and tables -/

theorem modOf_append (m : BitVec 2) (a b : BitVec 3) : modOf (m ++ a ++ b) = m := by revert m a b; decide

theorem regOf_append (m : BitVec 2) (a b : BitVec 3) : regOf (m ++ a ++ b) = a := by revert m a b; decide

theorem rmOf_append (m : BitVec 2) (a b : BitVec 3) : rmOf (m ++ a ++ b) = b := by revert m a b; decide

/-- A mode byte is its three fields (R53). -/
theorem modeFields (b1 : Byte) : modOf b1 ++ regOf b1 ++ rmOf b1 = b1 := by revert b1; decide +kernel

theorem regTab_field (r : Reg) : regTab r.width r.field = r := by cases r <;> rfl

theorem field_regTab (w : Width) (f : BitVec 3) : (regTab w f).field = f := by cases w <;> revert f <;> decide

theorem regTab_width (w : Width) (f : BitVec 3) : (regTab w f).width = w := by cases w <;> revert f <;> decide

theorem eacTab_field (e : Eac) : eacTab e.field = e := by cases e <;> rfl

theorem field_eacTab (f : BitVec 3) : (eacTab f).field = f := by revert f; decide

/-- The third displacement form is mod = 10. -/
theorem mod_two {m : BitVec 2} (h3 : m ≠ 3) (h0 : m ≠ 0) (h1 : m ≠ 1) : m = 2 := by revert m; decide

/-- The r/m operand has as many displacement bytes as the mode byte gives (R56, R58). -/
theorem dispBytes_rmOperand (m : BitVec 2) (f : BitVec 3) (w : Width) (d0 d1 : Byte) :
    (rmOperand m f w d0 d1).dispBytes = dispLen m f := by
  unfold rmOperand dispLen
  split
  · rfl
  · next h3 =>
    split
    · rfl
    · split
      · next h0 => subst h0; rfl
      · next h0 =>
        split
        · next h1 => subst h1; rfl
        · next h1 => rw [mod_two h3 h0 h1]; rfl

/-! ## Lengths -/

/-- Every instruction has 2 to 6 bytes (R49, R70). -/
theorem instr_len_bounds (i : Instr) : 2 ≤ i.len ∧ i.len ≤ 6 := by
  have hd : ∀ rm : Rm, rm.dispBytes ≤ 2 := by
    intro rm; rcases rm with _ | ⟨_, _ | _ | _⟩ | _ <;> simp [Rm.dispBytes]
  have hk : ∀ s w, immLen s w ≤ 2 := by intro s w; cases s <;> cases w <;> decide
  have hf : ∀ w, 1 ≤ immLen false w := by intro w; cases w <;> decide
  cases i <;> simp only [Instr.len] <;> first
    | (have := hd ‹Rm›; have := hk ‹Bool› ‹Width›; omega)
    | (have := hd ‹Rm›; have := hk false ‹Width›; omega)
    | (have := hf ‹Width›; have := hk false ‹Width›; omega)
    | omega

theorem record_len (i : Instr) : i.record.len = i.len := by cases i <;> rfl

theorem jcc_len (j : Jcc) (b : Byte) : (Jcc.instr j b).len = 2 := by cases j <;> rfl

/-- The bytes asked for are there where a decode succeeds (R57). -/
theorem need_cases {bs : List Byte} {n : Nat} {rest : Except DecodeFault Instr} {i : Instr}
    (h : need bs n rest = .ok i) : n ≤ bs.length ∧ rest = .ok i := by
  unfold need at h
  split at h
  · cases h
  · exact ⟨by omega, h⟩

theorem need_ok {bs : List Byte} {n : Nat} (h : n ≤ bs.length) (rest : Except DecodeFault Instr) :
    need bs n rest = rest := if_neg (by omega)

/-- The arithmetic selected by a reg field is ADD, SUB or CMP (R64). -/
theorem arithOf_cases {reg : BitVec 3} {mk : Bool → Width → Rm → Imm → Instr} (h : arithOf reg = some mk) :
    (reg = 0b000 ∧ mk = .addImmRm) ∨ (reg = 0b101 ∧ mk = .subImmRm) ∨ (reg = 0b111 ∧ mk = .cmpImmRm) := by
  unfold arithOf at h
  split at h
  · next hr => cases h; exact .inl ⟨hr, rfl⟩
  · split at h
    · next hr => cases h; exact .inr (.inl ⟨hr, rfl⟩)
    · split at h
      · next hr => cases h; exact .inr (.inr ⟨hr, rfl⟩)
      · cases h

/-- A successful decode has a class and is that class's decode (R78). -/
theorem decode_cases {bs : List Byte} {i : Instr} (h : decode bs = .ok i) :
    ∃ b0 rest c n, bs = b0 :: rest ∧ matchBits b0 = some (c, n) ∧ decodeClass c bs = .ok i := by
  unfold decode at h
  split at h
  · cases h
  · next b0 rest =>
    split at h
    · cases h
    · next c n hc => exact ⟨b0, rest, c, n, rfl, hc, h⟩

/-- A decoded instruction's bytes are there (R57). -/
theorem decode_length {bs : List Byte} {i : Instr} (h : decode bs = .ok i) : i.len ≤ bs.length := by
  obtain ⟨b0, rest, c, n, -, -, h⟩ := decode_cases h
  have hrr : ∀ mk, (∀ d w rm reg, (mk d w rm reg : Instr).len = 2 + rm.dispBytes) →
      decodeRmReg mk bs = .ok i → i.len ≤ bs.length := by
    intro mk hmk h
    obtain ⟨-, h⟩ := need_cases h
    obtain ⟨hl, h⟩ := need_cases h
    cases h
    rw [hmk, dispBytes_rmOperand]
    exact hl
  have hia : ∀ mk, (∀ w imm, (mk w imm : Instr).len = 1 + immLen false w) →
      decodeImmAcc mk bs = .ok i → i.len ≤ bs.length := by
    intro mk hmk h
    obtain ⟨hl, h⟩ := need_cases h
    cases h
    rw [hmk]
    exact hl
  cases c <;> simp only [decodeClass] at h
  case movRmReg => exact hrr _ (fun _ _ _ _ => rfl) h
  case addRmReg => exact hrr _ (fun _ _ _ _ => rfl) h
  case subRmReg => exact hrr _ (fun _ _ _ _ => rfl) h
  case cmpRmReg => exact hrr _ (fun _ _ _ _ => rfl) h
  case addImmAcc => exact hia _ (fun _ _ => rfl) h
  case subImmAcc => exact hia _ (fun _ _ => rfl) h
  case cmpImmAcc => exact hia _ (fun _ _ => rfl) h
  case movImmReg => obtain ⟨hl, h⟩ := need_cases h; cases h; exact hl
  case movMemAcc => obtain ⟨hl, h⟩ := need_cases h; cases h; exact hl
  case movAccMem => obtain ⟨hl, h⟩ := need_cases h; cases h; exact hl
  case jcc j => obtain ⟨hl, h⟩ := need_cases h; cases h; rw [jcc_len]; exact hl
  case movImmRm =>
    obtain ⟨-, h⟩ := need_cases h
    dsimp only at h
    split at h
    · cases h
    · obtain ⟨hl, h⟩ := need_cases h
      cases h
      simp only [Instr.len, dispBytes_rmOperand]
      exact hl
  case arithImmRm =>
    obtain ⟨-, h⟩ := need_cases h
    dsimp only at h
    split at h
    · cases h
    · next mk hmk =>
      obtain ⟨hl, h⟩ := need_cases h
      cases h
      have hlen : ∀ s w rm imm, (mk s w rm imm).len = 2 + rm.dispBytes + immLen s w := by
        obtain ⟨-, rfl⟩ | ⟨-, rfl⟩ | ⟨-, rfl⟩ := arithOf_cases hmk <;> exact fun _ _ _ _ => rfl
      rw [hlen, dispBytes_rmOperand]
      exact hl

/-- A decoded instruction lies in the buffer (R57). -/
theorem window_fits {s : State} {i : Instr} (hl : s.ip.toNat < s.params.len.val) (h : decode s.window = .ok i) :
    s.fits i := by
  have := decode_length h
  rw [window_length] at this
  unfold State.fits
  omega

/-- The window begins with the bytes that stand in the buffer at `ip`. -/
theorem window_take {s : State} {bs : List Byte} (h : ∀ k < bs.length, s.fetch (s.ip.toNat + k) = bs[k]?)
    (hb : bs.length ≤ maxInstrLen) (hf : s.ip.toNat + bs.length ≤ s.params.len.val) :
    s.window.take bs.length = bs := by
  unfold maxInstrLen at hb
  apply List.ext_getElem
  · rw [List.length_take, window_length]
    simp only [maxInstrLen]
    omega
  · intro k h1 h2
    have := h k h2
    unfold State.fetch at this
    rw [if_pos (by omega), List.getElem?_eq_getElem h2] at this
    simpa [State.window] using this

end Sys2Proof.Machine
end

