-- ==== Sys2Proof/Laws/Memory.lean ====
section
/-! SUPPORT. The laws of the program buffer: what a placed byte reads as, and that every operation keeps the
canonical form and the bound of the offsets. -/

namespace Sys2Proof.Machine

theorem read_cell_append (m : Memory) (a p : Nat) (v : Byte) (h : p = a → v = Config.unlisted → Memory.read m p = v) :
    Memory.read (Memory.cell a v ++ m) p = if p = a then v else Memory.read m p := by
  unfold Memory.cell
  split
  · next hv =>
    split
    · next hp => exact (h hp hv).trans rfl
    · rfl
  · rw [List.cons_append, List.nil_append, Memory.read]
    by_cases hp : p = a
    · rw [if_pos hp.symm, if_pos hp]
    · rw [if_neg (fun e => hp e.symm), if_neg hp]

/-- An offset below every listed one is unlisted. -/
theorem read_below (m : Memory) (p : Nat) (h : ∀ c ∈ m, p < c.1) : Memory.read m p = Config.unlisted := by
  induction m with
  | nil => rfl
  | cons c rest ih =>
    obtain ⟨k, v⟩ := c
    have hk : p < k := h (k, v) (by simp)
    rw [Memory.read, if_neg (by omega)]
    exact ih fun c hc => h c (by simp [hc])

/-- A byte reads as it was placed, and every other offset as before. -/
theorem read_write (m : Memory) (hm : Memory.wf m) (a p : Nat) (v : Byte) :
    Memory.read (Memory.write m a v) p = if p = a then v else Memory.read m p := by
  induction m with
  | nil => simpa [Memory.write] using read_cell_append [] a p v (by intro _ h; simp [Memory.read, h])
  | cons c rest ih =>
    obtain ⟨k, x⟩ := c
    obtain ⟨hs, hn⟩ := hm
    rw [List.pairwise_cons] at hs
    have hrest : Memory.wf rest := ⟨hs.2, fun y hy => hn y (by simp [hy])⟩
    unfold Memory.write
    split
    · next hak =>
      refine read_cell_append _ a p v fun hp hv => ?_
      subst hp
      rw [hv]
      refine read_below _ _ fun c hc => ?_
      rcases List.mem_cons.1 hc with rfl | hc
      · exact hak
      · exact lt_trans hak (hs.1 c hc)
    · split
      · next _ hak =>
        subst hak
        rw [read_cell_append rest a p v fun hp hv => by
          subst hp; rw [hv]; exact read_below _ _ fun c hc => hs.1 c hc]
        split
        · rfl
        · next hp => rw [Memory.read, if_neg (fun h => hp h.symm)]
      · rw [Memory.read, Memory.read, ih hrest]
        split <;> split <;> simp_all

/-- The entries of a written buffer are the placed one and old ones. -/
theorem mem_write (m : Memory) (a : Nat) (v : Byte) (c : Host.Cell) (h : c ∈ Memory.write m a v) :
    c = (a, v) ∧ v ≠ Config.unlisted ∨ c ∈ m := by
  have hcell : c ∈ Memory.cell a v → c = (a, v) ∧ v ≠ Config.unlisted := by
    unfold Memory.cell; split <;> simp_all
  induction m with
  | nil => exact .inl (hcell h)
  | cons x rest ih =>
    obtain ⟨k, y⟩ := x
    unfold Memory.write at h
    split at h
    · exact (List.mem_append.1 h).imp_left hcell
    · split at h
      · rcases List.mem_append.1 h with h | h
        · exact .inl (hcell h)
        · exact .inr (by simp [h])
      · rcases List.mem_cons.1 h with h | h
        · exact .inr (by simp [h])
        · exact (ih h).imp_right (by simp_all)

theorem cell_append_wf (m : Memory) (hm : Memory.wf m) (a : Nat) (v : Byte) (h : ∀ c ∈ m, a < c.1) :
    Memory.wf (Memory.cell a v ++ m) := by
  unfold Memory.cell
  split
  · simpa using hm
  · next hv =>
    refine ⟨List.pairwise_cons.2 ⟨h, hm.1⟩, fun c hc => ?_⟩
    rcases List.mem_cons.1 hc with rfl | hc
    · exact hv
    · exact hm.2 c hc

/-- Placing a byte keeps the canonical form. -/
theorem write_wf (m : Memory) (hm : Memory.wf m) (a : Nat) (v : Byte) : Memory.wf (Memory.write m a v) := by
  induction m with
  | nil => simpa [Memory.write] using cell_append_wf [] hm a v (by simp)
  | cons x rest ih =>
    obtain ⟨k, y⟩ := x
    have hs := List.pairwise_cons.1 hm.1
    have hrest : Memory.wf rest := ⟨hs.2, fun c hc => hm.2 c (by simp [hc])⟩
    unfold Memory.write
    split
    · next hak =>
      refine cell_append_wf _ hm a v fun c hc => ?_
      rcases List.mem_cons.1 hc with rfl | hc
      · exact hak
      · exact lt_trans hak (hs.1 c hc)
    · split
      · next hak => subst hak; exact cell_append_wf _ hrest a v hs.1
      · next h1 h2 =>
        refine ⟨List.pairwise_cons.2 ⟨fun c hc => ?_, (ih hrest).1⟩, fun c hc => ?_⟩
        · rcases mem_write rest a v c hc with ⟨rfl, -⟩ | hc
          · show k < a; omega
          · exact hs.1 c hc
        · rcases List.mem_cons.1 hc with rfl | hc
          · exact hm.2 (k, y) (by simp)
          · exact (ih hrest).2 c hc

/-- Placing bytes keeps the canonical form. -/
theorem place_wf (bs : List Byte) (m : Memory) (hm : Memory.wf m) (a : Nat) : Memory.wf (Memory.place m a bs) := by
  induction bs generalizing m a with
  | nil => exact hm
  | cons b bs ih => exact ih _ (write_wf m hm a b) _

/-- Placing bytes lists no offset at or beyond `n` that was not listed before. -/
theorem place_inside (bs : List Byte) (m : Memory) (a n : Nat) (hm : ∀ c ∈ m, c.1 < n) (ha : a + bs.length ≤ n) :
    ∀ c ∈ Memory.place m a bs, c.1 < n := by
  induction bs generalizing m a with
  | nil => exact hm
  | cons b bs ih =>
    simp only [List.length_cons] at ha
    refine ih _ _ (fun c hc => ?_) (by omega)
    rcases mem_write m a b c hc with ⟨rfl, -⟩ | hc
    · show a < n; omega
    · exact hm c hc

/-- Consecutive bytes read as they were placed, and every other offset as before. -/
theorem read_place (bs : List Byte) (m : Memory) (hm : Memory.wf m) (a p : Nat) :
    Memory.read (Memory.place m a bs) p =
      if h : a ≤ p ∧ p < a + bs.length then bs[p - a]'(by omega) else Memory.read m p := by
  induction bs generalizing m a with
  | nil => rw [dif_neg (by simp)]; rfl
  | cons b bs ih =>
    rw [Memory.place, ih _ (write_wf m hm a b), read_write m hm]
    by_cases hp : p = a
    · subst hp
      rw [dif_neg (by omega), if_pos rfl, dif_pos (by simp)]
      simp
    · rw [if_neg hp]
      by_cases h : a + 1 ≤ p ∧ p < a + 1 + bs.length
      · have h' : a ≤ p ∧ p < a + (b :: bs).length := by simp only [List.length_cons]; omega
        rw [dif_pos h, dif_pos h']
        obtain ⟨k, hk⟩ : ∃ k, p - a = k + 1 := ⟨p - a - 1, by omega⟩
        simp only [hk, List.getElem_cons_succ]
        congr 1
        omega
      · rw [dif_neg h, dif_neg (by simp only [List.length_cons]; omega)]

/-- The reset state's buffer has the canonical form. -/
theorem reset_buf_wf : Memory.wf State.reset.params.buf := ⟨List.Pairwise.nil, fun _ h => by cases h⟩

end Sys2Proof.Machine
end

