-- ==== Sys2Proof/Laws/PerInstr.lean ====
section
/-! SUPPORT. The per-instruction families of LAWS.json. -/

namespace Sys2Proof.Laws.EncodedLength

/-- The encoding of a well-formed instruction has the length of spec/30_encoding.md R70, and the instruction
record carries it (R77). -/
def Statement (i : Instr) : Prop := i.wf = true → (encode i).length = i.len ∧ i.record.len = i.len

theorem rmBytes_length (rm : Rm) : rm.bytes.length = rm.dispBytes := by
  rcases rm with _ | ⟨_, _ | _ | _⟩ | _ <;> rfl

theorem immBytes_length {s : Bool} {w : Width} {imm : Imm} (h : imm.fits s w = true) :
    imm.bytes.length = immLen s w := by
  cases s <;> cases w <;> cases imm <;> first | rfl | exact absurd h (by simp [Imm.fits, Imm.size])

/-- Every instruction, the shapes side by side: an r/m operand alone, with an immediate, an immediate alone. -/
theorem all (i : Instr) : Statement i := by
  intro h
  refine ⟨?_, by cases i <;> rfl⟩
  cases i <;> simp only [Instr.wf, Bool.and_eq_true] at h <;>
    simp only [encode, encodeRmReg, encodeArithImm, List.length_cons, List.length_append, List.length_nil,
      rmBytes_length, Instr.len] <;> first
    | rfl
    | (rw [immBytes_length h.2]; omega)
    | (rw [immBytes_length h]; omega)
    | omega

theorem movRmReg (d : Bool) (w : Width) (rm : Rm) (reg : Reg) : Statement (.movRmReg d w rm reg) := all _

theorem addRmReg (d : Bool) (w : Width) (rm : Rm) (reg : Reg) : Statement (.addRmReg d w rm reg) := all _

theorem subRmReg (d : Bool) (w : Width) (rm : Rm) (reg : Reg) : Statement (.subRmReg d w rm reg) := all _

theorem cmpRmReg (d : Bool) (w : Width) (rm : Rm) (reg : Reg) : Statement (.cmpRmReg d w rm reg) := all _

theorem movImmRm (w : Width) (rm : Rm) (imm : Imm) : Statement (.movImmRm w rm imm) := all _

theorem movImmReg (w : Width) (reg : Reg) (imm : Imm) : Statement (.movImmReg w reg imm) := all _

theorem movMemAcc (w : Width) (addr : Word) : Statement (.movMemAcc w addr) := all _

theorem movAccMem (w : Width) (addr : Word) : Statement (.movAccMem w addr) := all _

theorem addImmRm (sx : Bool) (w : Width) (rm : Rm) (imm : Imm) : Statement (.addImmRm sx w rm imm) := all _

theorem addImmAcc (w : Width) (imm : Imm) : Statement (.addImmAcc w imm) := all _

theorem subImmRm (sx : Bool) (w : Width) (rm : Rm) (imm : Imm) : Statement (.subImmRm sx w rm imm) := all _

theorem subImmAcc (w : Width) (imm : Imm) : Statement (.subImmAcc w imm) := all _

theorem cmpImmRm (sx : Bool) (w : Width) (rm : Rm) (imm : Imm) : Statement (.cmpImmRm sx w rm imm) := all _

theorem cmpImmAcc (w : Width) (imm : Imm) : Statement (.cmpImmAcc w imm) := all _

theorem jo (rel : Byte) : Statement (.jo rel) := all _

theorem jno (rel : Byte) : Statement (.jno rel) := all _

theorem jb (rel : Byte) : Statement (.jb rel) := all _

theorem jnb (rel : Byte) : Statement (.jnb rel) := all _

theorem je (rel : Byte) : Statement (.je rel) := all _

theorem jne (rel : Byte) : Statement (.jne rel) := all _

theorem jbe (rel : Byte) : Statement (.jbe rel) := all _

theorem ja (rel : Byte) : Statement (.ja rel) := all _

theorem js (rel : Byte) : Statement (.js rel) := all _

theorem jns (rel : Byte) : Statement (.jns rel) := all _

theorem jp (rel : Byte) : Statement (.jp rel) := all _

theorem jnp (rel : Byte) : Statement (.jnp rel) := all _

theorem jl (rel : Byte) : Statement (.jl rel) := all _

theorem jnl (rel : Byte) : Statement (.jnl rel) := all _

theorem jle (rel : Byte) : Statement (.jle rel) := all _

theorem jg (rel : Byte) : Statement (.jg rel) := all _

theorem loopnz (rel : Byte) : Statement (.loopnz rel) := all _

theorem loopz (rel : Byte) : Statement (.loopz rel) := all _

theorem loop (rel : Byte) : Statement (.loop rel) := all _

theorem jcxz (rel : Byte) : Statement (.jcxz rel) := all _

end Sys2Proof.Laws.EncodedLength
end

