-- ==== Sys2Proof/Laws/Values.lean ====
section
/-! SUPPORT. Byte and word helpers, the flags and the arithmetic unit, said on plain numbers. -/

namespace Sys2Proof.Machine

theorem lowByte_toNat (v : Word) : (lowByte v).toNat = v.toNat % 256 := by simp [lowByte]

theorem highByte_toNat (v : Word) : (highByte v).toNat = v.toNat / 256 := by
  simp [highByte, BitVec.extractLsb'_toNat, Nat.shiftRight_eq_div_pow]
  have := v.isLt
  omega

theorem zext16_toNat (b : Byte) : (zext16 b).toNat = b.toNat := by
  simp [zext16]
  have := b.isLt
  omega

/-- `sext_16` as an unsigned number (R7). -/
theorem sext16_toNat (b : Byte) : (sext16 b).toNat = if b.toNat < 128 then b.toNat else b.toNat + 65280 := by
  revert b; decide +kernel

/-- `signed16(sext_16(b))` as an integer (R7, R59). -/
theorem signed16_sext16 (b : Byte) :
    signed16 (sext16 b) = if b.toNat < 128 then (b.toNat : Int) else (b.toNat : Int) - 256 := by
  revert b; decide +kernel

/-- `signed16` as an integer (R7). -/
theorem signed16_eq (v : Word) :
    signed16 v = if v.toNat < 32768 then (v.toNat : Int) else (v.toNat : Int) - 65536 := by
  have h := v.isLt
  simp only [signed16, BitVec.toInt_eq_toNat_cond]
  split <;> split <;> omega

/-- A byte name reads as a number below 256 (R19). -/
theorem get_byte_lt (s : State) (r : Reg) (h : r.width = .byte) : (s.get r).toNat < 256 := by
  cases r <;> first
    | (cases h; done)
    | (simp [State.get, regStore, regPart, partOf, zext16_toNat]; omega)

/-- The value of an immediate source that is present (R60, R97). -/
theorem sourceValue_imm (s : State) {imm : Imm} (h : imm ≠ .absent) :
    ∃ v, s.sourceValue (.imm imm) = .ok v ∧ v.toNat = immNumber imm := by
  cases imm with
  | absent => exact absurd rfl h
  | imm8 b => exact ⟨_, rfl, by simp only [immNumber, unsigned16_signed16, sext16_toNat]⟩
  | imm16 v => exact ⟨_, rfl, by simp [immNumber]⟩

/-- Every flag after `set_flags_from_result`. -/
theorem getFlag_setFlagsFromResult (s : State) (res : Int) (f : Flag) :
    (s.setFlagsFromResult res).getFlag f =
    (match f with
    | .z => decide (res = 0)
    | .s => decide (res < 0)
    | .p => decide (res % 2 = 0)
    | .c => s.getFlag .c
    | .o => s.getFlag .o) := by
  cases f <;> simp [State.getFlag, flagBit, flagsFrom_bit, -BitVec.getLsbD_eq_getElem]

/-- An unsigned number congruent to the exact result (R104). -/
def aluNumber (op : AluOp) (a b : Word) : Nat :=
  match op with
  | .add => a.toNat + b.toNat
  | .sub => a.toNat + 65536 - b.toNat

theorem aluWord_toNat (op : AluOp) (a b : Word) : (aluWord op a b).toNat = aluNumber op a b % 65536 := by
  have := a.isLt
  have := b.isLt
  cases op <;> simp [aluWord, aluNumber, BitVec.toNat_add, BitVec.toNat_sub]
  omega

theorem aluByte_toNat (op : AluOp) (a b : Word) : (aluByte op a b).toNat = aluNumber op a b % 256 := by
  have := a.isLt
  have := b.isLt
  cases op <;> simp [aluByte, aluNumber, BitVec.toNat_add, BitVec.toNat_sub, lowByte_toNat]
  omega

theorem aluResult_toNat (op : AluOp) (w : Width) (a b : Word) :
    (aluResult op w a b).toNat = aluNumber op a b % modulus w := by
  cases w <;> simp [aluResult, aluWord_toNat, modulus, zext16_toNat, aluByte_toNat]

/-- The flags of a word result. -/
theorem shows_word (s : State) (v : Word) : (s.setFlagsFromResult (signed16 v)).Shows v.toNat 32768 := by
  have h := v.isLt
  refine ⟨(getFlag_setFlagsFromResult s _ .z).trans ?_, (getFlag_setFlagsFromResult s _ .s).trans ?_,
    (getFlag_setFlagsFromResult s _ .p).trans ?_⟩ <;>
    (apply decide_eq_decide.2; rw [signed16_eq]; split <;> omega)

/-- The flags of a byte result, sign-widened (R106). -/
theorem shows_byte (s : State) (v : Byte) : (s.setFlagsFromResult (signed16 (sext16 v))).Shows v.toNat 128 := by
  have h := v.isLt
  refine ⟨(getFlag_setFlagsFromResult s _ .z).trans ?_, (getFlag_setFlagsFromResult s _ .s).trans ?_,
    (getFlag_setFlagsFromResult s _ .p).trans ?_⟩ <;>
    (apply decide_eq_decide.2; rw [signed16_sext16]; split <;> omega)

theorem shows_congr {s t : State} {v n : Nat} (h : s.flags = t.flags) (hs : s.Shows v n) : t.Shows v n := by
  simpa [State.Shows, State.getFlag, h] using hs

/-- The flags of every operation, width and byte-flags mode. -/
theorem arithFlags_flagInput {s t : State} {op : AluOp} {w : Width} {a b : Word}
    (h : t.flags = flagsFrom s.flags (flagInput s.params.byteFlags op w a b)) :
    s.ArithFlags t w (aluNumber op a b) := by
  unfold State.ArithFlags
  cases w with
  | word => rw [← aluWord_toNat]; exact shows_congr h.symm (shows_word s _)
  | byte =>
    cases hb : s.params.byteFlags <;> rw [hb] at h <;> simp only
    · rw [← aluByte_toNat]; exact shows_congr h.symm (shows_byte s _)
    · rw [← aluWord_toNat]; exact shows_congr h.symm (shows_word s _)

end Sys2Proof.Machine
end

