-- ==== Sys2Proof/Laws/Records.lean ====
section
/-! SUPPORT. The laws of the instruction record: what its operands show of the encoded ones, and the address that
a trace record reports. -/

namespace Sys2Proof.Machine

/-- A displacement's `i16` as a number (R58). -/
theorem disp_value (d : Disp) : d.value = shownDisp d := by
  cases d with
  | absent => rfl
  | disp8 b => exact congrArg some (signed16_sext16 b)
  | disp16 v => exact congrArg some (signed16_eq v)

/-- What the record shows of an r/m operand (R58). -/
theorem rm_operand (rm : Rm) : rm.operand = shownRm rm := by
  cases rm with
  | reg r => rfl
  | mem eac d => exact congrArg (Operand.memory eac) (disp_value d)
  | direct a => rfl

/-- What the record shows of an immediate (R60). -/
theorem imm_operand (imm : Imm) : imm.operand = shownImm imm := by
  cases imm with
  | absent => rfl
  | imm8 b => exact congrArg Operand.immediate (signed16_sext16 b)
  | imm16 v => exact congrArg Operand.immediate (signed16_eq v)

/-- The destination and the source that the d flag gives (R61). -/
theorem rmReg_operands (d : Bool) (rm : Rm) (reg : Reg) :
    Operands.pair (dstOf d rm reg).operand (srcOf d rm reg).operand = shownPair d rm reg := by
  rw [rm_operand, rm_operand]
  cases d <;> rfl

/-- The address reported of an r/m operand (R84). -/
def State.rmAddress (s : State) : Rm → Option Word
  | .reg _ => none
  | .mem eac disp => some (s.effectiveAddress eac disp.value)
  | .direct addr => some addr

/-- The address reported of an instruction is that of the one operand that can name memory. -/
theorem reportedAddress_record (s : State) (i : Instr) :
    s.reportedAddress i.record.operands = (memoryOperand i).bind s.rmAddress := by
  have hd : ∀ (d : Bool) (rm : Rm) (reg : Reg),
      s.reportedAddress (.pair (dstOf d rm reg).operand (srcOf d rm reg).operand) = s.rmAddress rm := by
    intro d rm reg; cases d <;> cases rm <;> rfl
  have hi : ∀ (rm : Rm) (imm : Imm), s.reportedAddress (.pair rm.operand imm.operand) = s.rmAddress rm := by
    intro rm imm; cases rm <;> cases imm <;> rfl
  have hr : ∀ (r : Reg) (imm : Imm), s.reportedAddress (.pair (.register r) imm.operand) = none := by
    intro r imm; cases imm <;> rfl
  cases i <;> simp only [Instr.record, recordRmReg, recordArithImm, recordPlain, recordJump, hd, hi, hr, memoryOperand] <;>
    rfl

/-- `ea` as a number: the form's sum mod 65536 (R84). -/
theorem effectiveAddress_toNat (s : State) (eac : Eac) (disp : Disp) :
    ((s.effectiveAddress eac disp.value).toNat : Int) = s.eacSum eac disp % 65536 := by
  rw [disp_value]
  cases eac <;>
    simp only [State.eacSum, State.effectiveAddress, State.getOrZero, State.number, eacBase, eacIndex, unsigned16,
      BitVec.toNat_add, BitVec.toNat_ofInt, show (0 : Word).toNat = 0 from rfl] <;>
    omega

end Sys2Proof.Machine
end

