-- ==== Sys2Proof/Tests/Slice0.lean ====
section
/-! SUPPORT. The model's own tests. The expected results are those of spec/95_test_vectors.md, named by their
ids (V-E1 and so on), or hand-made words from the encodings of spec/30_encoding.md. The last part holds a
concrete state and operands for the hypotheses of every statement of Certificates/Slice0/Obligations.lean. -/

namespace Sys2Proof.Tests

open Sys2Proof.Machine

/-! ## Helpers -/

/-- The reset state with a buffer of length `len` that holds `bytes` at the offset `p`, standing there. -/
def codeAt (p : Nat) (bytes : List Byte) (len : Fin 65536) : State :=
  { State.reset with ip := BitVec.ofNat 16 p, params := { Params.initial with len, buf := Memory.place [] p bytes } }

/-- The reset state with the buffer `bytes`. -/
def fresh (bytes : List Byte) : State := codeAt 0 bytes (Fin.ofNat 65536 bytes.length)

/-- `s` in `DECODE_ONLY`. -/
def listing (s : State) : State := { s with params := { s.params with execMode := .decodeOnly } }

/-- `s` in `WIDE16`. -/
def wide (s : State) : State := { s with params := { s.params with byteFlags := .wide16 } }

/-- `s` with the flags register given. -/
def withFlags (s : State) (f : Byte) : State := { s with flags := f }

/-- The state after one step. -/
def stepped (s : State) : State :=
  match step s with
  | .next t => t
  | .fault _ => s
  | .refused _ => s

/-- The state after one instruction. -/
def performed (i : Instr) (s : State) : State :=
  match exec i s with
  | .next t => t
  | .fault _ => s
  | .refused _ => s

/-- One step answers a next state and `p` holds of it. -/
def after (s : State) (p : State → Bool) : Bool :=
  match step s with
  | .next t => p t
  | .fault _ => false
  | .refused _ => false

/-- Z, S and P. -/
def zsp (t : State) : Bool × Bool × Bool := (t.getFlag .z, t.getFlag .s, t.getFlag .p)

/-- A fault of kind `k` at the offset `p`, with `ip` there. -/
def faulted (k : FaultKind) (p : Word) (t : State) : Bool :=
  t.status = .fault && t.faultRec = { kind := k, atIp := p } && t.ip = p

/-! ## Well-formedness: an ill-formed term for each check, which the check refuses -/

theorem test_wf_refuses_reg_width : (Instr.movRmReg false .word (.reg .ax) .bl).wf = false := by decide
theorem test_wf_refuses_rm_width : (Instr.addRmReg true .byte (.reg .bx) .bl).wf = false := by decide
theorem test_wf_refuses_bp_without_displacement :
    (Instr.cmpRmReg false .word (.mem .bp .absent) .ax).wf = false := by decide
theorem test_wf_refuses_one_byte_for_a_word : (Instr.movImmReg .word .ax (.imm8 5)).wf = false := by decide
theorem test_wf_refuses_two_bytes_for_a_byte : (Instr.addImmAcc .byte (.imm16 5)).wf = false := by decide
theorem test_wf_refuses_two_bytes_when_extended :
    (Instr.subImmRm true .word (.reg .ax) (.imm16 5)).wf = false := by decide
theorem test_wf_refuses_a_byte_where_none_is : (Instr.addImmRm true .byte (.reg .al) (.imm8 5)).wf = false := by decide
theorem test_wf_refuses_absent_elsewhere : (Instr.movImmRm .byte (.reg .al) .absent).wf = false := by decide
theorem test_wf_refuses_imm_reg_width : (Instr.movImmReg .byte .ax (.imm8 5)).wf = false := by decide
theorem test_wf_refuses_imm_rm_width : (Instr.cmpImmRm false .word (.reg .cl) (.imm16 1)).wf = false := by decide
theorem test_wf_refuses_acc_without_immediate : (Instr.cmpImmAcc .byte .absent).wf = false := by decide

/-! ## Decoding: a word written out for every constructor (R50, R53-R68) -/

theorem test_decode_mov_rm_reg : decode [0b10001000, 0b01_000_000, 0b00000101]
    = .ok (.movRmReg false .byte (.mem .bxSi (.disp8 5)) .al) := by decide
theorem test_decode_mov_direct : decode [0b10001000, 0b00_000_110, 0b00110100, 0b00010010]
    = .ok (.movRmReg false .byte (.direct 0x1234) .al) := by decide
theorem test_decode_mov_imm_rm : decode [0b11000111, 0b10_000_110, 0b00010000, 0, 0b00000101, 0]
    = .ok (.movImmRm .word (.mem .bp (.disp16 16)) (.imm16 5)) := by decide
theorem test_decode_mov_imm_reg : decode [0b1011_0_100, 0b00010010] = .ok (.movImmReg .byte .ah (.imm8 18)) := by decide
theorem test_decode_mov_mem_acc : decode [0b10100000, 0b00010000, 0] = .ok (.movMemAcc .byte 16) := by decide
theorem test_decode_mov_acc_mem : decode [0b10100011, 0, 1] = .ok (.movAccMem .word 256) := by decide
theorem test_decode_add_rm_reg : decode [0b00000010, 0b11_100_000]
    = .ok (.addRmReg true .byte (.reg .al) .ah) := by decide
theorem test_decode_add_imm_rm : decode [0b10000000, 0b01_000_110, 0b11111111, 0b00000101]
    = .ok (.addImmRm false .byte (.mem .bp (.disp8 0xFF)) (.imm8 5)) := by decide
theorem test_decode_add_imm_acc : decode [0b00000100, 0b10000000] = .ok (.addImmAcc .byte (.imm8 0x80)) := by decide
theorem test_decode_sub_rm_reg : decode [0b00101001, 0b11_011_000]
    = .ok (.subRmReg false .word (.reg .ax) .bx) := by decide
theorem test_decode_sub_imm_rm : decode [0b10000011, 0b11_101_001, 1]
    = .ok (.subImmRm true .word (.reg .cx) (.imm8 1)) := by decide
theorem test_decode_sub_imm_acc : decode [0b00101101, 1, 0] = .ok (.subImmAcc .word (.imm16 1)) := by decide
theorem test_decode_cmp_rm_reg : decode [0b00111001, 0b11_111_110]
    = .ok (.cmpRmReg false .word (.reg .si) .di) := by decide
theorem test_decode_cmp_imm_rm : decode [0b10000001, 0b11_111_001, 1, 0]
    = .ok (.cmpImmRm false .word (.reg .cx) (.imm16 1)) := by decide
theorem test_decode_cmp_imm_acc : decode [0b00111101, 0, 0b10000000]
    = .ok (.cmpImmAcc .word (.imm16 0x8000)) := by decide
theorem test_decode_jumps_70_77 :
    decode [0b01110000, 0xFE] = .ok (.jo 0xFE) ∧ decode [0b01110001, 0xFE] = .ok (.jno 0xFE) ∧
    decode [0b01110010, 0xFE] = .ok (.jb 0xFE) ∧ decode [0b01110011, 0xFE] = .ok (.jnb 0xFE) ∧
    decode [0b01110100, 0xFE] = .ok (.je 0xFE) ∧ decode [0b01110101, 0xFC] = .ok (.jne 0xFC) ∧
    decode [0b01110110, 0xFE] = .ok (.jbe 0xFE) ∧ decode [0b01110111, 0xFE] = .ok (.ja 0xFE) := by decide
theorem test_decode_jumps_78_7F :
    decode [0b01111000, 0xFE] = .ok (.js 0xFE) ∧ decode [0b01111001, 0xFE] = .ok (.jns 0xFE) ∧
    decode [0b01111010, 0xFE] = .ok (.jp 0xFE) ∧ decode [0b01111011, 0xFE] = .ok (.jnp 0xFE) ∧
    decode [0b01111100, 0xFE] = .ok (.jl 0xFE) ∧ decode [0b01111101, 0xFE] = .ok (.jnl 0xFE) ∧
    decode [0b01111110, 0xFE] = .ok (.jle 0xFE) ∧ decode [0b01111111, 0xFE] = .ok (.jg 0xFE) := by decide
theorem test_decode_loops :
    decode [0b11100000, 0xFE] = .ok (.loopnz 0xFE) ∧ decode [0b11100001, 0xFE] = .ok (.loopz 0xFE) ∧
    decode [0b11100010, 0xFE] = .ok (.loop 0xFE) ∧ decode [0b11100011, 0x10] = .ok (.jcxz 0x10) := by decide

/-- R54, R55: every column of REGTAB and EACTAB. -/
theorem test_tables :
    ((List.range 8).map fun n => regTab .byte (BitVec.ofNat 3 n)) = [.al, .cl, .dl, .bl, .ah, .ch, .dh, .bh] ∧
    ((List.range 8).map fun n => regTab .word (BitVec.ofNat 3 n)) = [.ax, .cx, .dx, .bx, .sp, .bp, .si, .di] ∧
    ((List.range 8).map fun n => eacTab (BitVec.ofNat 3 n)) = [.bxSi, .bxDi, .bpSi, .bpDi, .si, .di, .bp, .bx] := by
  decide

/-- V-D13: `82 C3` has no immediate byte and length 2; its record holds `ImmediateAbsent`. -/
theorem test_decode_d13 : decode [0x82, 0xC3, 0x05] = .ok (.addImmRm true .byte (.reg .bl) .absent) ∧
    (Instr.addImmRm true .byte (.reg .bl) .absent).record.len = 2 ∧
    (Instr.addImmRm true .byte (.reg .bl) .absent).record.operands = .pair (.register .bl) .immediateAbsent := by decide

/-- V-D6, V-D16, V-D17: displacements and immediates are sign-extended in the record. -/
theorem test_records : (Instr.addImmRm false .byte (.mem .bp (.disp8 0xFF)) (.imm8 5)).record.operands
      = .pair (.memory .bp (some (-1))) (.immediate 5) ∧
    (Instr.addImmAcc .byte (.imm8 0x80)).record.operands = .pair (.register .al) (.immediate (-128)) ∧
    (Instr.cmpImmAcc .word (.imm16 0x8000)).record.operands = .pair (.register .ax) (.immediate (-32768)) := by decide

/-- V-X1 to V-X9: bytes outside the subset. -/
theorem test_decode_unknown :
    decode [0x0F] = .error .unknownOpcode ∧ decode [0xF4] = .error .unknownOpcode ∧
    decode [0x2E, 0x89, 0xD8] = .error .unknownOpcode ∧ decode [0x8E, 0xD8] = .error .unknownOpcode ∧
    decode [0x80, 0xCB, 0x01] = .error .unknownOpcode ∧ decode [0x83, 0xE0, 0x01] = .error .unknownOpcode ∧
    decode [0xC6, 0xC8, 0x01] = .error .unknownOpcode ∧ decode [0xC7, 0xC8, 0x01, 0x00] = .error .unknownOpcode ∧
    decode [0x80, 0xCB] = .error .unknownOpcode := by decide

/-- V-X10 to V-X16: cut instructions. -/
theorem test_decode_truncated :
    decode [0x80] = .error .truncatedInstruction ∧ decode [0xB8, 0x05] = .error .truncatedInstruction ∧
    decode [0x89] = .error .truncatedInstruction ∧ decode [0x8B, 0x06, 0x10] = .error .truncatedInstruction ∧
    decode [0x81, 0xC0, 0x01] = .error .truncatedInstruction ∧ decode [0x75] = .error .truncatedInstruction ∧
    decode [0xA1, 0x00] = .error .truncatedInstruction := by decide

/-- R81: the mnemonics of the records. -/
theorem test_mnemonics : (Instr.movMemAcc .byte 0).record.op.mnemonic = "mov" ∧
    (Instr.loopnz 0).record.op.mnemonic = "loopnz" := by decide

/-! ## The words of the opcode table -/

theorem test_table_word_one_byte : decodeTableWord 8 0x88 = some (.movRmReg false .byte (.mem .bxSi .absent) .al) := by decide
theorem test_table_word_two_bytes : decodeTableWord 16 0x8028 = some (.subImmRm false .byte (.mem .bxSi .absent) (.imm8 0)) := by decide
theorem test_fetch_word : after (State.reset.withFetchWord 8 0xB8)
    (fun t => t.status = .run && t.ip = 3 && t.get .ax = 0) = true := by decide
theorem test_fetch_word_at_the_end :
    after (State.withFetchWord { State.reset with ip := 65533, status := .halt } 16 0x8028)
      (fun t => faulted .memoryOperandUnsupported 0 t) = true := by decide

/-! ## Registers and reset (V-S1 to V-S6, V-R1, V-R2, V-X22) -/

theorem test_alias_bytes : ((State.reset.set .al 0x12).set .ah 0x34).get .ax = 0x3412 := by decide
theorem test_alias_word : (State.reset.set .ax 0xABCD).get .al = 0x00CD ∧ (State.reset.set .ax 0xABCD).get .ah = 0x00AB := by
  decide
theorem test_set_takes_low_byte : ((State.reset.set .ax 0x1234).set .al 0x01FF).get .ax = 0x12FF := by decide
theorem test_set_high_keeps_low : ((State.reset.set .bx 0x00FF).set .bh 0x80).get .bx = 0x80FF ∧
    ((State.reset.set .bx 0x00FF).set .bh 0x80).get .bl = 0x00FF := by decide
theorem test_set_sp : (State.reset.set .sp 0xFFFF).get .sp = 0xFFFF ∧ (State.reset.set .sp 0xFFFF).get .bp = 0 := by decide
theorem test_reset_registers : State.reset.get .ax = 0 ∧ State.reset.get .di = 0 ∧ State.reset.flags = 0 ∧
    State.reset.ip = 0 ∧ State.reset.status = .run := by decide
theorem test_reset_memory : State.reset.params.buf = [] ∧ Memory.wf State.reset.params.buf := by decide
theorem test_empty_buffer_halts : after State.reset (fun t => t.status = .halt && t.trace = []) = true := by decide
theorem test_halted_has_no_step : step { State.reset with status := .halt } = .fault .halted := rfl
theorem test_faulted_has_no_step : step { State.reset with status := .fault } = .fault .faulted := rfl
theorem test_reset_refuses_65536 : resetRun State.reset (List.replicate 65536 0) .execute .narrow = .refused .bufferTooLong :=
  dif_neg (by rw [List.length_replicate]; decide)
theorem test_canonical_form : Memory.write [(3, 7)] 3 0 = [] ∧ Memory.write [(3, 7)] 1 5 = [(1, 5), (3, 7)] := by decide
/-- V-R3: a lone `B0` as the last byte of the longest buffer. -/
theorem test_truncated_at_the_end : after (codeAt 65534 [0xB0] 65535)
    (fun t => faulted .truncatedInstruction 65534 t) = true := by decide
theorem test_fault_codes : FaultKind.code .unknownOpcode = 1 ∧ FaultKind.code .ipOutOfRange = 7 := by decide

/-! ## MOV (V-M1 to V-M18) -/

theorem test_mov_rm_reg_m1 : after ((fresh [0x89, 0xD8]).set .bx 0x1234)
    (fun t => t.get .ax = 0x1234 && t.ip = 2) = true := by decide
theorem test_mov_rm_reg_m4 : after ((fresh [0x8A, 0xC4]).set .ax 0xAB12) (fun t => t.get .ax = 0xABAB) = true := by decide
theorem test_mov_imm_rm_m7 : after ((fresh [0xC6, 0xC7, 0x80]).set .bx 0x0011)
    (fun t => t.get .bx = 0x8011 && t.ip = 3) = true := by decide
theorem test_mov_imm_rm_m15 : after (fresh [0xC6, 0x06, 0x00, 0x01, 0x05])
    (fun t => faulted .memoryOperandUnsupported 0 t) = true := by decide
theorem test_mov_imm_reg_m9 : after ((fresh [0xB4, 0x12]).set .ax 0x0034)
    (fun t => t.get .ax = 0x1234 && t.ip = 2) = true := by decide
theorem test_mov_imm_reg_m12 : after (withFlags (fresh [0xB8, 0x00, 0x00]) 0x0E)
    (fun t => t.get .ax = 0 && t.flags = 0x0E) = true := by decide
theorem test_mov_mem_acc_m16 : after (fresh [0xA0, 0x10, 0x00])
    (fun t => faulted .memoryOperandUnsupported 0 t && t.trace = []) = true := by decide
theorem test_mov_mem_acc_listed : after (listing (fresh [0xA1, 0x10, 0x00]))
    (fun t => t.ip = 3 && t.trace.map (·.ea) = [some 16]) = true := by decide
theorem test_mov_acc_mem_m17 : after (fresh [0xA3, 0x00, 0x01])
    (fun t => faulted .memoryOperandUnsupported 0 t) = true := by decide
theorem test_mov_acc_mem_m18 : after (listing (fresh [0xA2, 0x00, 0x01]))
    (fun t => t.ip = 3 && t.trace.map (·.instr.operands) = [.pair (.memoryDirect 256) (.register .al)]) = true := by decide

/-! ## ADD, SUB and CMP (V-A1 to V-A35) -/

theorem test_add_rm_reg_a2 : after ((fresh [0x01, 0xC0]).set .ax 0x8000)
    (fun t => t.get .ax = 0 && t.flags = 0x0A) = true := by decide
theorem test_add_rm_reg_a5 : after ((fresh [0x02, 0xE0]).set .ax 0x0102)
    (fun t => t.get .ax = 0x0302 && zsp t = (false, false, false)) = true := by decide
theorem test_add_imm_rm_a7 : after ((fresh [0x83, 0xC0, 0xFF]).set .ax 1)
    (fun t => t.get .ax = 0 && zsp t = (true, false, true)) = true := by decide
theorem test_add_imm_rm_a12 : after (wide ((fresh [0x80, 0xC3, 0xCC]).set .bl 0x34))
    (fun t => t.get .bl = 0 && zsp t = (true, false, true)) = true := by decide
theorem test_add_imm_acc_a9 : after ((fresh [0x05, 0xFF, 0x7F]).set .ax 1)
    (fun t => t.get .ax = 0x8000 && t.flags = 0x0C) = true := by decide
theorem test_add_imm_acc_a10 : after ((fresh [0x04, 0x02]).set .ax 0x12FF)
    (fun t => t.get .ax = 0x1201 && zsp t = (false, false, false)) = true := by decide
theorem test_sub_rm_reg_a16 : after (((fresh [0x29, 0xD8]).set .ax 3).set .bx 5)
    (fun t => t.get .ax = 0xFFFE && zsp t = (false, true, true)) = true := by decide
theorem test_sub_rm_reg_a22 : after (wide ((fresh [0x28, 0xC3]).set .bl 0x80))
    (fun t => t.get .bl = 0x80 && zsp t = (false, false, true)) = true := by decide
theorem test_sub_imm_rm_a18 : after ((fresh [0x83, 0xE9, 0x01]).set .cx 1)
    (fun t => t.get .cx = 0 && zsp t = (true, false, true)) = true := by decide
theorem test_sub_imm_rm_a21 : after (fresh [0x80, 0xEC, 0x01])
    (fun t => t.get .ax = 0xFF00 && zsp t = (false, true, false)) = true := by decide
theorem test_sub_imm_acc_a19 : after (fresh [0x2D, 0x01, 0x00])
    (fun t => t.get .ax = 0xFFFF && t.flags = 0x04) = true := by decide
theorem test_sub_imm_acc_a23 : after (wide (fresh [0x2C, 0x80]))
    (fun t => t.get .ax = 0x0080 && zsp t = (false, false, true)) = true := by decide
theorem test_cmp_rm_reg_a26 : after (((fresh [0x3B, 0xC3]).set .ax 3).set .bx 5)
    (fun t => t.get .ax = 3 && t.get .bx = 5 && zsp t = (false, true, true)) = true := by decide
theorem test_cmp_rm_reg_a31 : after ((fresh [0x38, 0xC4]).set .ax 0x8001)
    (fun t => t.get .ax = 0x8001 && zsp t = (false, false, false)) = true := by decide
theorem test_cmp_imm_rm_a30 : after ((fresh [0x81, 0xF9, 0x01, 0x00]).set .cx 0x8000)
    (fun t => t.get .cx = 0x8000 && zsp t = (false, false, false)) = true := by decide
theorem test_cmp_imm_rm_a34 : after (fresh [0x80, 0xFB, 0x80]) (fun t => zsp t = (false, true, true)) = true := by decide
theorem test_cmp_imm_acc_a28 : after (fresh [0x3D, 0x00, 0x80]) (fun t => zsp t = (false, true, true)) = true := by decide
theorem test_cmp_imm_acc_a33 : after (wide (fresh [0x3C, 0x80])) (fun t => zsp t = (false, false, true)) = true := by decide
/-- V-X19: the missing immediate comes before the memory operand. -/
theorem test_absent_before_memory : after (fresh [0x82, 0x06, 0x10, 0x00])
    (fun t => faulted .immediateAbsent 0 t) = true := by decide

/-! ## Jumps and loops (V-J1 to V-J13) -/

theorem test_jne_j1 : after (codeAt 12 [0x75, 0xFC] 14) (fun t => t.ip = 10 && t.status = .run) = true := by decide
theorem test_jne_j2 : after (withFlags (codeAt 12 [0x75, 0xFC] 14) 0x02) (fun t => t.ip = 14) = true := by decide

/-- A jump that falls through at offset 4 with every flag set: `ip = 6`, CX and F as before. -/
def fallsThrough (b0 : Byte) : Bool :=
  after (withFlags ((codeAt 4 [b0, 0xFE] 6).set .cx 5) 0x0E)
    (fun t => t.ip = 6 && t.get .cx = 5 && t.flags = 0x0E && t.status = .run)

theorem test_jo_j13 : fallsThrough 0x70 = true := by decide
theorem test_jno_j13 : fallsThrough 0x71 = true := by decide
theorem test_jb_j13 : fallsThrough 0x72 = true := by decide
theorem test_jnb_j13 : fallsThrough 0x73 = true := by decide
theorem test_je_j13 : fallsThrough 0x74 = true := by decide
theorem test_jbe_j13 : fallsThrough 0x76 = true := by decide
theorem test_ja_j13 : fallsThrough 0x77 = true := by decide
theorem test_js_j13 : fallsThrough 0x78 = true := by decide
theorem test_jns_j13 : fallsThrough 0x79 = true := by decide
theorem test_jp_j13 : fallsThrough 0x7A = true := by decide
theorem test_jnp_j13 : fallsThrough 0x7B = true := by decide
theorem test_jl_j13 : fallsThrough 0x7C = true := by decide
theorem test_jnl_j13 : fallsThrough 0x7D = true := by decide
theorem test_jle_j13 : fallsThrough 0x7E = true := by decide
theorem test_jg_j13 : fallsThrough 0x7F = true := by decide
theorem test_loopnz_j13 : fallsThrough 0xE0 = true := by decide
theorem test_loopz_j13 : fallsThrough 0xE1 = true := by decide
theorem test_loop_j13 : fallsThrough 0xE2 = true := by decide
theorem test_jcxz_j13 : fallsThrough 0xE3 = true := by decide

/-! ## The trace record (R95) -/

/-- V-A1: one record, with the destination and the flags before and after, and `ip` after. -/
theorem test_trace_values : after (((fresh [0x01, 0xD8]).set .ax 5).set .bx 3)
    (fun t => t.trace.map (·.values) = [some
      { dst := some { reg := .ax, before := 5, after := 8 }
        flags := some { before := 0, after := 0x08 }
        ipAfter := 2 }]) = true := by decide

/-! ## Witnesses: the hypotheses of every statement, met by a concrete state and operands -/

theorem test_witness_DecodeOfEncodeIsTheInstruction :
    (Instr.movImmRm .word (.mem .bp (.disp16 0)) (.imm16 0xFFFF)).wf = true ∧
    (Instr.subImmRm true .byte (.direct 0) .absent).wf = true ∧ (Instr.jne 0x80).wf = true := by decide
theorem test_witness_EncodeOfDecodeIsTheBytesRead :
    decode [0xC7, 0x86, 0x10, 0x00, 0x05, 0x00, 0x90] = .ok (.movImmRm .word (.mem .bp (.disp16 16)) (.imm16 5)) := by decide
theorem test_witness_DecodedInstructionsAreWellFormed : decode [0x88, 0x46, 0x00] = .ok (.movRmReg false .byte (.mem .bp (.disp8 0)) .al) := by
  decide
theorem test_witness_DecodeReadsOnlyItsOwnBytes : decode [0xB0, 0x07, 0x90] = .ok (.movImmReg .byte .al (.imm8 7)) ∧
    [0xB0, 0x07, 0x11, 0x12].take (Instr.movImmReg .byte .al (.imm8 7)).len
      = [0xB0, 0x07, 0x90].take (Instr.movImmReg .byte .al (.imm8 7)).len := by decide
theorem test_witness_MatcherFindsTheLongestPrefix : matchBits 0x05 = some (.addImmAcc, 7) ∧ matchBits 0x06 = none ∧
    matchBits 0xBF = some (.movImmReg, 4) ∧ matchBits 0xE3 = some (.jcc .jcxz, 8) ∧ matchBits 0xFF = none := by decide
theorem test_witness_OtherFirstBytesAreUnknownOpcode :
    [0x00, 0x05, 0x28, 0x2D, 0x38, 0x3D, 0x70, 0x7F, 0x80, 0x83, 0x88, 0x8B, 0xA0, 0xA3, 0xB0, 0xBF, 0xC6, 0xC7,
      0xE0, 0xE3].all (fun b => (matchBits b).isSome) = true ∧
    [0x06, 0x27, 0x2E, 0x37, 0x3E, 0x6F, 0x84, 0x87, 0x8C, 0x9F, 0xA4, 0xAF, 0xC0, 0xC5, 0xC8, 0xDF, 0xE4,
      0xFF].all (fun b => (matchBits b).isNone) = true ∧
    (fresh [0x0F]).status = .run ∧ (fresh [0x0F]).fetch 0 = some 0x0F ∧ matchBits 0x0F = none := by decide
theorem test_witness_UnknownOpcodeHasThreeCauses :
    decode [0x84] = .error .unknownOpcode ∧ decode [0x80, 0b11_001_000] = .error .unknownOpcode ∧
    decode [0x83, 0b00_110_000] = .error .unknownOpcode ∧ decode [0xC6, 0b11_001_000] = .error .unknownOpcode ∧
    decode [0xC7, 0b11_111_000] = .error .unknownOpcode := by decide
theorem test_witness_CutInstructionsAreTruncated :
    (Instr.movImmRm .word (.direct 16) (.imm16 5)).wf = true ∧ (Instr.movImmRm .word (.direct 16) (.imm16 5)).len = 6 ∧
    decode ((encode (.movImmRm .word (.direct 16) (.imm16 5))).take 1) = .error .truncatedInstruction ∧
    decode ((encode (.movImmRm .word (.direct 16) (.imm16 5))).take 5) = .error .truncatedInstruction := by decide
theorem test_witness_LengthsByClass_modes :
    decode [0x01, 0b11_000_000] = .ok (.addRmReg false .word (.reg .ax) .ax) ∧
    decode [0x29, 0b00_000_111] = .ok (.subRmReg false .word (.mem .bx .absent) .ax) ∧
    decode [0x39, 0b00_000_110, 1, 0] = .ok (.cmpRmReg false .word (.direct 1) .ax) ∧
    decode [0x89, 0b01_000_110, 1] = .ok (.movRmReg false .word (.mem .bp (.disp8 1)) .ax) ∧
    decode [0x89, 0b10_000_110, 1, 0] = .ok (.movRmReg false .word (.mem .bp (.disp16 1)) .ax) := by decide
theorem test_witness_LengthsByClass_immediates :
    decode [0xC6, 0b11_000_000, 1] = .ok (.movImmRm .byte (.reg .al) (.imm8 1)) ∧
    decode [0xC7, 0b00_000_110, 1, 0, 1, 0] = .ok (.movImmRm .word (.direct 1) (.imm16 1)) ∧
    decode [0x82, 0b11_111_000] = .ok (.cmpImmRm true .byte (.reg .al) .absent) ∧
    decode [0x81, 0b10_101_000, 1, 0, 1, 0] = .ok (.subImmRm false .word (.mem .bxSi (.disp16 1)) (.imm16 1)) ∧
    decode [0xB7, 1] = .ok (.movImmReg .byte .bh (.imm8 1)) ∧ decode [0xB8, 1, 0] = .ok (.movImmReg .word .ax (.imm16 1)) ∧
    decode [0x2C, 1] = .ok (.subImmAcc .byte (.imm8 1)) ∧ decode [0x05, 1, 0] = .ok (.addImmAcc .word (.imm16 1)) ∧
    decode [0xA2, 1, 0] = .ok (.movAccMem .byte 1) ∧ decode [0x7F, 1] = .ok (.jg 1) ∧ decode [0xE3, 1] = .ok (.jcxz 1) := by
  decide
/-- V-A16, V-D4, V-D13 and V-D15: the operation and the order of the operands. -/
theorem test_record_fields :
    (Instr.subRmReg false .word (.reg .ax) .bx).record =
      { cls := .subRmReg, op := .sub, d := some false, w := some .word, s := none
        operands := .pair (.register .ax) (.register .bx), len := 2 } ∧
    (Instr.movRmReg true .byte (.mem .bxSi (.disp16 5)) .al).record.operands
      = .pair (.register .al) (.memory .bxSi (some 5)) ∧
    (Instr.addImmRm true .byte (.reg .bl) .absent).record.s = some true ∧
    (Instr.movAccMem .word 256).record.operands = .pair (.memoryDirect 256) (.register .ax) := by decide
theorem test_witness_SetWritesTheNamedBits : Reg.width .sp = .word ∧ Reg.width .bh = .byte ∧
    regDisjoint .al .ah = true ∧ regDisjoint .cx .ax = true := by decide
theorem test_witness_FlagsFollowTheResult :
    (State.reset.setFlagsFromResult (-32768)).flags = 0x0C ∧ (State.reset.setFlagsFromResult 32767).flags = 0 ∧
    (withFlags State.reset 0xF1).setFlagsFromResult 0 = withFlags State.reset 0xFB := by decide
theorem test_witness_ResetSuppliesTheBuffer_longest : (List.replicate 65535 (0 : Byte)).length ≤ 65535 := by
  rw [List.length_replicate]
theorem test_witness_ResetSuppliesTheBuffer_too_long : 65535 < (List.replicate 65536 (0 : Byte)).length := by
  rw [List.length_replicate]; decide
theorem test_witness_StepsAreEnabledExactlyInRun : (fresh [0xB0]).status = .run ∧
    (State.takeHalt State.reset).status = .halt ∧ (State.takeFault State.reset .ipOutOfRange).status = .fault := by decide
theorem test_witness_StepAtBufferEndHalts : (codeAt 14 [] 14).status = .run ∧
    (codeAt 14 [] 14).params.len.val ≤ (codeAt 14 [] 14).ip.toNat ∧
    (codeAt 65535 [] 65535).params.len.val ≤ (codeAt 65535 [] 65535).ip.toNat := by decide
theorem test_witness_DecodeFailuresAreTaken : (fresh [0x0F]).status = .run ∧
    (fresh [0x0F]).ip.toNat < (fresh [0x0F]).params.len.val ∧ decode (fresh [0x0F]).window = .error .unknownOpcode ∧
    decode (fresh [0xB0]).window = .error .truncatedInstruction := by decide
theorem test_witness_StepRunsTheDecodedInstruction : (fresh [0x74, 0xFE]).status = .run ∧
    (fresh [0x74, 0xFE]).ip.toNat < (fresh [0x74, 0xFE]).params.len.val ∧
    decode (fresh [0x74, 0xFE]).window = .ok (.je 0xFE) := by decide
theorem test_witness_StepRunsTheInstructionInTheBuffer :
    (codeAt 65533 [0x74, 0xFE] 65535).status = .run ∧ (Instr.je 0xFE).wf = true ∧
    (codeAt 65533 [0x74, 0xFE] 65535).ip.toNat + (Instr.je 0xFE).len ≤ (codeAt 65533 [0x74, 0xFE] 65535).params.len.val ∧
    ∀ k < (Instr.je 0xFE).len, (codeAt 65533 [0x74, 0xFE] 65535).fetch ((codeAt 65533 [0x74, 0xFE] 65535).ip.toNat + k)
      = (encode (.je 0xFE))[k]? := by decide
theorem test_witness_OnlyJneLeavesTheSequence :
    step (codeAt 65533 [0x74, 0xFE] 65535) = .next (stepped (codeAt 65533 [0x74, 0xFE] 65535)) ∧
    decode (codeAt 65533 [0x74, 0xFE] 65535).window = .ok (.je 0xFE) ∧
    (stepped (codeAt 65533 [0x74, 0xFE] 65535)).status = .run ∧ isJne (.je 0xFE) = false ∧
    (stepped (codeAt 65533 [0x74, 0xFE] 65535)).ip = 65535 := ⟨rfl, by decide, by decide, by decide, by decide⟩
theorem test_witness_FaultsArePrecise : step (fresh [0x01, 0x00]) = .next (stepped (fresh [0x01, 0x00])) ∧
    (stepped (fresh [0x01, 0x00])).status = .fault := ⟨rfl, by decide⟩
theorem test_witness_StatusTransitions : step (codeAt 2 [] 2) = .next (stepped (codeAt 2 [] 2)) ∧
    (stepped (codeAt 2 [] 2)).status = .halt ∧ (stepped (fresh [0x74, 0])).status = .run := ⟨rfl, by decide, by decide⟩
theorem test_witness_TwoFaultKindsAreNeverRaised : step (fresh [0x75, 0xFC]) = .next (stepped (fresh [0x75, 0xFC])) ∧
    (stepped (fresh [0x75, 0xFC])).status = .fault ∧
    (stepped (fresh [0x75, 0xFC])).faultRec.kind = .ipOutOfRange := ⟨rfl, by decide, by decide⟩
theorem test_witness_ProgramNeverChanges : step (fresh [0xB0, 7]) = .next (stepped (fresh [0xB0, 7])) ∧
    (stepped (fresh [0xB0, 7])).fetch 1 = some 7 ∧ (stepped (fresh [0xB0, 7])).fetch 2 = none := ⟨rfl, by decide, by decide⟩
theorem test_witness_OneTraceRecordPerCommit : step (fresh [0x74, 0]) = .next (stepped (fresh [0x74, 0])) ∧
    (stepped (fresh [0x74, 0])).trace.length = 1 := ⟨rfl, by decide⟩
theorem test_witness_TraceHoldsTheResultingValues :
    exec (.cmpImmAcc .byte (.imm8 0)) State.reset = .next (performed (.cmpImmAcc .byte (.imm8 0)) State.reset) ∧
    (performed (.cmpImmAcc .byte (.imm8 0)) State.reset).trace ≠ State.reset.trace := ⟨rfl, by decide⟩
/-- `[bp + di - 1]` with a sum that wraps, a direct address of a mode byte and of an accumulator MOV, a register
operand and no r/m operand at all. -/
theorem test_witness_ReportedEffectiveAddresses_listing : (listing State.reset).params.execMode = .decodeOnly ∧
    memoryOperand (.cmpImmRm true .word (.mem .bpDi (.disp8 0xFF)) (.imm8 1)) = some (.mem .bpDi (.disp8 0xFF)) ∧
    (performed (.cmpImmRm true .word (.mem .bpDi (.disp8 0xFF)) (.imm8 1))
      ((listing State.reset).set .bp 0xFFFF |>.set .di 3)).trace.map (·.ea) = [some 1] ∧
    memoryOperand (.movImmRm .byte (.direct 0xFFFF) (.imm8 0)) = some (.direct 0xFFFF) ∧
    (performed (.movImmRm .byte (.direct 0xFFFF) (.imm8 0)) (listing State.reset)).trace.map (·.ea) = [some 0xFFFF] ∧
    memoryOperand (.movAccMem .byte 0) = some (.direct 0) ∧
    (performed (.movAccMem .byte 0) (listing State.reset)).trace.map (·.ea) = [some 0] ∧
    memoryOperand (.addRmReg true .word (.reg .ax) .bx) = some (.reg .ax) ∧
    (performed (.addRmReg true .word (.reg .ax) .bx) (listing State.reset)).trace.map (·.ea) = [none] ∧
    memoryOperand (.loop 0) = none ∧ (performed (.loop 0) (listing State.reset)).trace.map (·.ea) = [none] := by decide
theorem test_witness_ReportedEffectiveAddresses_execute : State.reset.params.execMode = .execute ∧
    exec (.movImmReg .byte .al (.imm8 7)) State.reset
      = .next (performed (.movImmReg .byte .al (.imm8 7)) State.reset) ∧
    (performed (.movImmReg .byte .al (.imm8 7)) State.reset).trace = State.reset.trace ++
      [{ atIp := 0, instr := (Instr.movImmReg .byte .al (.imm8 7)).record, ea := none
         values := some { dst := some { reg := .al, before := 0, after := 7 }, flags := none, ipAfter := 2 } }] :=
  ⟨by decide, rfl, by decide⟩
theorem test_witness_DecodeOnlyListsEveryInstruction : (listing State.reset).params.execMode = .decodeOnly ∧
    (performed (.jne 0xFC) (listing State.reset)).ip = 2 := by decide
theorem test_witness_FrameOfEveryInstruction : exec (.addImmAcc .byte (.imm8 1)) State.reset
      = .next (performed (.addImmAcc .byte (.imm8 1)) State.reset) ∧
    writtenReg (.addImmAcc .byte (.imm8 1)) = some .al ∧ writtenReg (.loop 0) = none ∧
    writesFlags (.movMemAcc .byte 0) = false := ⟨rfl, by decide⟩
theorem test_witness_OnlyArithmeticWritesFlags : exec (.jcxz 0) State.reset = .next (performed (.jcxz 0) State.reset) ∧
    writesFlags (.jcxz 0) = false ∧ flagBit .c ≠ flagBit .z ∧ flagBit .c ≠ flagBit .s ∧ flagBit .c ≠ flagBit .p :=
  ⟨rfl, by decide⟩
theorem test_witness_CarryAndOverflowStayZero :
    resetRun State.reset [0x2D, 0x01, 0x00] .execute .narrow = .next (fresh [0x2D, 0x01, 0x00]) ∧
    core.run 2 (fresh [0x2D, 0x01, 0x00]) = .next (stepped (stepped (fresh [0x2D, 0x01, 0x00]))) := ⟨rfl, rfl⟩
theorem test_witness_FlagsAreReadOnlyByJne : exec (.jne 4) State.reset = .next (performed (.jne 4) State.reset) ∧
    (0xFD : Byte).getLsbD (flagBit .z) = State.reset.getFlag .z := ⟨rfl, by decide⟩
theorem test_witness_FaultRecordIsNeverRead : step (fresh [0x0F]) = .next (stepped (fresh [0x0F])) ∧
    (stepped (fresh [0x0F])).status = .fault := ⟨rfl, by decide⟩
theorem test_witness_MovToRegisterCompletes : State.reset.params.execMode = .execute ∧
    (Instr.movRmReg true .byte (.reg .ah) .al).wf = true ∧ (Instr.movImmRm .word (.reg .di) (.imm16 0xFFFF)).wf = true ∧
    (Instr.movImmReg .byte .bh (.imm8 0x80)).wf = true := by decide
theorem test_witness_MemoryOperandsFault : State.reset.params.execMode = .execute ∧
    namesMemory (.mem .bp (.disp8 0)) = true ∧ namesMemory (.direct 0xFFFF) = true ∧
    (Imm.imm8 0) ≠ .absent ∧ (Imm.imm16 0xFFFF) ≠ .absent := by decide
theorem test_witness_AbsentImmediatesFaultFirst : State.reset.params.execMode = .execute ∧
    Imm.fits true .byte .absent = true ∧
    (performed (.subImmRm true .byte (.reg .dl) .absent) State.reset).faultRec.kind = .immediateAbsent ∧
    (performed (.cmpImmRm true .byte (.direct 0) .absent) State.reset).faultRec.kind = .immediateAbsent := by decide
theorem test_witness_AddToRegisterCompletes : State.reset.params.execMode = .execute ∧
    (Instr.addRmReg true .byte (.reg .ah) .al).wf = true ∧
    (Instr.addImmRm true .word (.reg .sp) (.imm8 0x80)).wf = true ∧ (Imm.imm8 0x80) ≠ .absent ∧
    (Instr.addImmAcc .word (.imm16 0xFFFF)).wf = true := by decide
theorem test_witness_SubFromRegisterCompletes : State.reset.params.execMode = .execute ∧
    (Instr.subRmReg false .word (.reg .ax) .ax).wf = true ∧
    (Instr.subImmRm false .byte (.reg .dh) (.imm8 0xFF)).wf = true ∧ (Imm.imm8 0xFF) ≠ .absent ∧
    (Instr.subImmAcc .byte (.imm8 0)).wf = true := by decide
theorem test_witness_CmpWithRegisterCompletes : State.reset.params.execMode = .execute ∧
    (Instr.cmpRmReg false .byte (.reg .bl) .bh).wf = true ∧
    (Instr.cmpImmRm false .word (.reg .bp) (.imm16 0x8000)).wf = true ∧ (Imm.imm16 0x8000) ≠ .absent ∧
    (Instr.cmpImmAcc .word (.imm16 0)).wf = true := by decide
theorem test_witness_WordDifferenceFlags : State.reset.params.execMode = .execute ∧ Reg.width .ax = .word ∧
    Reg.width .sp = .word := by decide
theorem test_witness_SignExtendedImmediateActsAsItsWord : (0xFF80 : Word).toNat = immNumber (.imm8 0x80) ∧
    (0x007F : Word).toNat = immNumber (.imm8 0x7F) := by decide
theorem test_witness_OtherJumpsAndLoopsFallThrough : State.reset.params.execMode = .execute ∧
    (withFlags State.reset 0x02).getFlag .z = true ∧ (Jcc.instr .jne 0x80).record.operands = .displacement (-128) ∧
    (Jcc.instr .loop 0x7F).record.operands = .displacement 127 := by decide
/-- The targets 0, 65535, -1 and 65536. -/
theorem test_witness_TakenJneGoesToItsTarget : State.reset.params.execMode = .execute ∧
    State.reset.getFlag .z = false ∧
    (performed (.jne 0xFE) (codeAt 0 [] 2)).ip = 0 ∧ (performed (.jne 0x02) (codeAt 65531 [] 65535)).ip = 65535 ∧
    faulted .ipOutOfRange 0 (performed (.jne 0xFD) (codeAt 0 [] 2)) = true ∧
    faulted .ipOutOfRange 65531 (performed (.jne 0x03) (codeAt 65531 [] 65535)) = true := by decide
theorem test_witness_ExecuteFaultsByInstruction : exec (.jne 0x80) State.reset = .next (performed (.jne 0x80) State.reset) ∧
    State.reset.status = .run ∧ (performed (.jne 0x80) State.reset).status = .fault ∧
    (performed (.jne 0x80) State.reset).faultRec.kind = .ipOutOfRange ∧ isJne (.movMemAcc .byte 0) = false ∧
    (performed (.movMemAcc .byte 0) State.reset).status = .fault := ⟨rfl, by decide⟩
theorem test_witness_JneToItselfNeverEnds : (fresh [0x75, 0xFE]).status = .run ∧
    (fresh [0x75, 0xFE]).params.execMode = .execute ∧ (fresh [0x75, 0xFE]).getFlag .z = false ∧
    (fresh [0x75, 0xFE]).fetch (fresh [0x75, 0xFE]).ip.toNat = some 0x75 ∧
    (fresh [0x75, 0xFE]).fetch ((fresh [0x75, 0xFE]).ip.toNat + 1) = some 0xFE := by decide

/-- A state with a short buffer meets the invariant. -/
theorem inv_fresh : (fresh [0x74, 0x01]).Inv where
  flags := by decide
  bufWf := place_wf _ _ ⟨List.Pairwise.nil, by simp⟩ _
  bufInside := place_inside _ _ _ _ (by simp) (by decide)
  halted := by intro h; cases h
  faulted := by intro h; cases h
  traced := by intro r h; cases h

theorem test_witness_EveryStepKeepsTheInvariant : (fresh [0x74, 0x01]).Inv ∧
    step (fresh [0x74, 0x01]) = .next (stepped (fresh [0x74, 0x01])) := ⟨inv_fresh, rfl⟩
theorem test_witness_SuppliedResetMeetsTheInvariant :
    resetRun State.reset [0x74, 0x01] .decodeOnly .wide16 = .next (listing (wide (fresh [0x74, 0x01]))) := rfl

end Sys2Proof.Tests
end

section
/-! The register file and reset (spec/10_state.md R12-R21, R36): what each name reads of its backing word, how a word
name and its two byte names alias, and what reset leaves. -/

namespace Sys2Proof.Machine

/-! ### What a name reads of its backing word (R14, R19) -/

theorem get_whole (s : State) {r : Reg} (hr : regPart r = .whole) : s.get r = s.regs.read (regStore r) := by
  rw [State.get, hr, partOf]

theorem get_low_toNat (s : State) {r : Reg} (hr : regPart r = .low) :
    (s.get r).toNat = (s.regs.read (regStore r)).toNat % 256 := by
  rw [State.get, hr, partOf, zext16_toNat, lowByte_toNat]

theorem get_high_toNat (s : State) {r : Reg} (hr : regPart r = .high) :
    (s.get r).toNat = (s.regs.read (regStore r)).toNat / 256 := by
  rw [State.get, hr, partOf, zext16_toNat, highByte_toNat]

/-! ### A word name and its two byte names (R15, R20) -/

/-- `le16` as shift and or: the form in which R15 assembles a word from its bytes. -/
theorem shift_or_eq_le16 (lo hi : Byte) : (zext16 hi <<< 8) ||| zext16 lo = le16 lo hi :=
  BitVec.setWidth_append_eq_shiftLeft_setWidth_or.symm.trans (BitVec.setWidth_eq (hi ++ lo))

/-- The word name `w` and the byte names `h` and `l` stand for one backing word and for its high and low half (R14). -/
structure NamesHalves (w h l : Reg) : Prop where
  whole : regPart w = .whole
  high : regPart h = .high
  low : regPart l = .low
  highStore : regStore h = regStore w
  lowStore : regStore l = regStore w

theorem namesHalves_ax : NamesHalves .ax .ah .al := ⟨rfl, rfl, rfl, rfl, rfl⟩
theorem namesHalves_cx : NamesHalves .cx .ch .cl := ⟨rfl, rfl, rfl, rfl, rfl⟩
theorem namesHalves_dx : NamesHalves .dx .dh .dl := ⟨rfl, rfl, rfl, rfl, rfl⟩
theorem namesHalves_bx : NamesHalves .bx .bh .bl := ⟨rfl, rfl, rfl, rfl, rfl⟩

section
variable {w h l : Reg} (hn : NamesHalves w h l)
include hn

theorem NamesHalves.get_eq_halves (s : State) :
    s.get w = s.regs.read (regStore w) ∧ (s.get l).toNat = (s.regs.read (regStore w)).toNat % 256 ∧
    (s.get h).toNat = (s.regs.read (regStore w)).toNat / 256 :=
  ⟨get_whole s hn.whole, hn.lowStore ▸ get_low_toNat s hn.low, hn.highStore ▸ get_high_toNat s hn.high⟩

theorem NamesHalves.get_eq_shift_or (s : State) : s.get w = (s.get h <<< 8) ||| s.get l := by
  rw [get_whole s hn.whole, State.get, State.get, hn.high, hn.low, hn.highStore, hn.lowStore, partOf, partOf,
    shift_or_eq_le16, le16_low_high]

theorem NamesHalves.get_low_set (s : State) (v : Word) : ((s.set w v).get l).toNat = v.toNat % 256 := by
  rw [get_low_toNat _ hn.low, set_regs, hn.lowStore, regsRead_write_same, hn.whole, mergePart]

theorem NamesHalves.get_high_set (s : State) (v : Word) : ((s.set w v).get h).toNat = v.toNat / 256 := by
  rw [get_high_toNat _ hn.high, set_regs, hn.highStore, regsRead_write_same, hn.whole, mergePart]

end

/-! ### `get` of the name just set -/

theorem get_set_word (s : State) {r : Reg} (v : Word) (hr : r.width = .word) : (s.set r v).get r = v := by
  rw [get_set_same, hr]

theorem get_set_byte_toNat (s : State) {r : Reg} (v : Word) (hr : r.width = .byte) :
    ((s.set r v).get r).toNat = v.toNat % 256 := by
  rw [get_set_same, hr, zext16_toNat, lowByte_toNat]

theorem set_sameControl (s : State) (r : Reg) (v : Word) : s.SameControl (s.set r v) :=
  ⟨set_status s r v, set_faultRec s r v, sameProgram_of_params (set_params s r v)⟩

/-! ### Reset (R36) -/

theorem regsRead_zero (x : Store) : RegFile.zero.read x = 0 := by cases x <;> rfl

theorem partOf_zero (p : Part) : partOf p 0 = 0 := by cases p <;> rfl

theorem get_reset (r : Reg) : State.reset.get r = 0 := by
  rw [State.get, show State.reset.regs = RegFile.zero from rfl, regsRead_zero, partOf_zero]

theorem getFlag_reset (f : Flag) : State.reset.getFlag f = false := BitVec.getLsbD_zero

/-! ### The obligations -/

/-- Settles O13: each word name is assembled from the two halves that its byte names read. -/
theorem wordRegistersAliasTheirBytes : Obligations.WordRegistersAliasTheirBytes := by
  intro s
  exact ⟨namesHalves_ax.get_eq_shift_or s, namesHalves_cx.get_eq_shift_or s, namesHalves_dx.get_eq_shift_or s,
    namesHalves_bx.get_eq_shift_or s⟩

/-- Settles O14: the words with byte names by their halves, the single-purpose words whole. -/
theorem getReadsTheNamedBits : Obligations.GetReadsTheNamedBits := by
  intro s
  exact ⟨namesHalves_ax.get_eq_halves s, namesHalves_cx.get_eq_halves s, namesHalves_dx.get_eq_halves s,
    namesHalves_bx.get_eq_halves s, get_whole s rfl, get_whole s rfl, get_whole s rfl, get_whole s rfl⟩

/-- Settles O15: the written name, the names disjoint from it, the byte halves of a written word, and the frame. -/
theorem setWritesTheNamedBits : Obligations.SetWritesTheNamedBits := by
  intro s r v
  exact ⟨get_set_word s v, get_set_byte_toNat s v, fun q hq => get_set_disjoint s r q v hq,
    namesHalves_ax.get_low_set s v, namesHalves_ax.get_high_set s v,
    namesHalves_cx.get_low_set s v, namesHalves_cx.get_high_set s v,
    namesHalves_dx.get_low_set s v, namesHalves_dx.get_high_set s v,
    namesHalves_bx.get_low_set s v, namesHalves_bx.get_high_set s v,
    set_flags s r v, set_ip s r v, set_sameControl s r v, set_trace s r v⟩

/-- Settles O17: the reset state holds the values of R36 field by field. -/
theorem resetValues : Obligations.ResetValues :=
  ⟨get_reset, rfl, getFlag_reset, rfl, rfl⟩

end Sys2Proof.Machine
end

section
/-! The program buffer (spec/20_memory.md R48). -/

namespace Sys2Proof.Machine

/-- Settles O28: a step keeps the parameters, which hold the buffer, and a fetch reads nothing else. -/
theorem programNeverChanges : Obligations.ProgramNeverChanges := by
  intro s t h p
  have hparams : t.params = s.params := step_params h
  exact ⟨fetch_congr hparams p, hparams⟩

end Sys2Proof.Machine
end

section
/-! The Bit-Pattern Matcher (spec/30_encoding.md R51, R52): one lookup per prefix length, longest first. -/

namespace Sys2Proof

theorem matchesByte_iff (row : PatternRow) (b0 : Byte) :
    row.matchesByte b0 = true ↔ row.bits = b0.toNat >>> (8 - row.len) := decide_eq_true_iff

theorem patternTable_len : ∀ row ∈ patternTable, 0 < row.len ∧ row.len ≤ 8 := by decide

theorem lookupPrefix_some {b0 : Byte} {n : Nat} {c : OpClass} (h : lookupPrefix b0 n = some c) :
    ∃ row ∈ patternTable, row.cls = c ∧ row.len = n ∧ row.matchesByte b0 = true := by
  obtain ⟨row, hfind, hcls⟩ := Option.map_eq_some_iff.mp h
  have hrow : row.len = n ∧ row.matchesByte b0 = true := by simpa using List.find?_some hfind
  exact ⟨row, List.mem_of_find?_eq_some hfind, hcls, hrow⟩

theorem lookupPrefix_eq_none {b0 : Byte} {n : Nat} :
    lookupPrefix b0 n = none ↔ ∀ row ∈ patternTable, row.len = n → ¬ row.matchesByte b0 = true := by
  simp [lookupPrefix]

/-- The matcher answers the first prefix length, from the longest down, whose lookup answers (R52). -/
theorem matchFrom_some {b0 : Byte} {m n : Nat} {c : OpClass} (h : matchFrom b0 m = some (c, n)) :
    lookupPrefix b0 n = some c ∧ ∀ k, n < k → k ≤ m → lookupPrefix b0 k = none := by
  induction m with
  | zero => cases h
  | succ m ih =>
    unfold matchFrom at h
    split at h
    · next hc =>
      cases h
      exact ⟨hc, fun k _ _ => by omega⟩
    · next hnone =>
      obtain ⟨hc, hlonger⟩ := ih h
      refine ⟨hc, fun k hn hk => ?_⟩
      obtain rfl | hlt := Nat.eq_or_lt_of_le hk
      · exact hnone
      · exact hlonger k hn (by omega)

theorem matchFrom_eq_none {b0 : Byte} {m : Nat} :
    matchFrom b0 m = none ↔ ∀ k, 0 < k → k ≤ m → lookupPrefix b0 k = none := by
  induction m with
  | zero => exact ⟨fun _ k _ _ => by omega, fun _ => rfl⟩
  | succ m ih =>
    unfold matchFrom
    split
    · next c hc => exact ⟨nofun, fun h => by simp [h (m + 1) (by omega) le_rfl] at hc⟩
    · next hnone =>
      rw [ih]
      refine ⟨fun h k hk hm => ?_, fun h k hk hm => h k hk (by omega)⟩
      obtain rfl | hlt := Nat.eq_or_lt_of_le hm
      · exact hnone
      · exact h k hk (by omega)

/-- No pattern that is a prefix of the byte is longer than the answered one (R52). -/
theorem matchBits_longest {b0 : Byte} {c : OpClass} {n : Nat} (h : matchBits b0 = some (c, n)) {row : PatternRow}
    (hrow : row ∈ patternTable) (hbits : row.matchesByte b0 = true) : row.len ≤ n := by
  obtain ⟨-, hlonger⟩ := matchFrom_some h
  by_contra hlt
  have hnone : lookupPrefix b0 row.len = none := hlonger _ (by omega) (patternTable_len row hrow).2
  exact lookupPrefix_eq_none.mp hnone row hrow rfl hbits

theorem matchBits_eq_none {b0 : Byte} :
    matchBits b0 = none ↔ ∀ row ∈ patternTable, ¬ row.matchesByte b0 = true := by
  refine matchFrom_eq_none.trans ⟨fun h row hrow => ?_, fun h k _ _ => ?_⟩
  · obtain ⟨hpos, hle⟩ := patternTable_len row hrow
    exact lookupPrefix_eq_none.mp (h row.len hpos hle) row hrow rfl
  · exact lookupPrefix_eq_none.mpr fun row hrow _ => h row hrow

theorem decode_unknownOpcode {b0 : Byte} (h : matchBits b0 = none) (rest : List Byte) :
    decode (b0 :: rest) = .error .unknownOpcode := by simp [decode, h]

/-- Settles O6: the lookups run from the longest prefix length down, and every row has a length among them. -/
theorem matcherFindsTheLongestPrefix : Obligations.MatcherFindsTheLongestPrefix := by
  intro b0
  refine ⟨fun c n h => ⟨?_, fun row hrow hbits => ?_⟩, ?_, decode_unknownOpcode⟩
  · obtain ⟨row, hrow, hcls, rfl, hbits⟩ := lookupPrefix_some (matchFrom_some h).1
    exact ⟨row, hrow, hcls, rfl, (matchesByte_iff row b0).mp hbits⟩
  · exact matchBits_longest h hrow ((matchesByte_iff row b0).mpr hbits)
  · simp only [matchBits_eq_none, matchesByte_iff, ne_eq]

end Sys2Proof
end

section
/-! The execution cycle (spec/40_execution_cycle.md R87, R90, R92, R93): the halt at the buffer's end, the listing
of `DECODE_ONLY`, and the operands that `EXECUTE` answers with a fault. -/

namespace Sys2Proof.Machine

/-! ### What a step and an instruction answer -/

theorem step_bufferEnd {s : State} (hrun : s.status = .run) (hend : s.params.len.val ≤ s.ip.toNat) :
    step s = .next s.takeHalt := by
  simp only [step, hrun, if_pos hend]

theorem exec_decodeOnly {s : State} (h : s.params.execMode = .decodeOnly) (i : Instr) :
    exec i s = .next (s.list i) := by
  rw [exec_eq_perform, perform_decodeOnly h]

theorem exec_error {i : Instr} {s : State} {k : FaultKind} (h : s.params.execMode = .execute)
    (hk : phaseOne i s = .error k) : exec i s = .next (s.takeFault k) := by
  rw [exec_eq_perform, hk, perform_error h]

/-- In `EXECUTE` a fault of phase one is taken precisely (R146). -/
theorem exec_faultTaken {i : Instr} {s : State} {k : FaultKind} (h : s.params.execMode = .execute)
    (hk : phaseOne i s = .error k) : ∃ t, exec i s = .next t ∧ s.FaultTaken t k :=
  ⟨_, exec_error h hk, takeFault_precise s k⟩

/-! ### The operand checks: the source first, then the destination (R92, R93, R150) -/

theorem sourceValue_namesMemory (s : State) {rm : Rm} (h : namesMemory rm = true) :
    s.sourceValue (.rm rm) = .error .memoryOperandUnsupported := by
  cases rm with
  | reg r => cases h
  | mem eac disp => rfl
  | direct addr => rfl

theorem destReg_namesMemory {rm : Rm} (h : namesMemory rm = true) :
    destReg rm = .error .memoryOperandUnsupported := by
  cases rm with
  | reg r => cases h
  | mem eac disp => rfl
  | direct addr => rfl

theorem operands_source_error {s : State} {src : Source} {k : FaultKind} (h : s.sourceValue src = .error k)
    (dst : Rm) : s.operands dst src = .error k := by
  simp only [State.operands, h]

theorem operands_dest_error {s : State} {dst : Rm} {src : Source} {v : Word} {k : FaultKind}
    (hsrc : s.sourceValue src = .ok v) (hdst : destReg dst = .error k) : s.operands dst src = .error k := by
  simp only [State.operands, hsrc, hdst]

/-- In a register/memory and register form the memory operand is the source when `d = 1` and the destination when
`d = 0` (R61). -/
theorem operands_rmReg_namesMemory (s : State) (d : Bool) {rm : Rm} (reg : Reg) (h : namesMemory rm = true) :
    s.operands (dstOf d rm reg) (.rm (srcOf d rm reg)) = .error .memoryOperandUnsupported := by
  cases d with
  | true => exact operands_source_error (sourceValue_namesMemory s h) (.reg reg)
  | false => exact operands_dest_error (src := .rm (.reg reg)) rfl (destReg_namesMemory h)

theorem operands_imm_namesMemory (s : State) {rm : Rm} {imm : Imm} (h : namesMemory rm = true)
    (himm : imm ≠ .absent) : s.operands rm (.imm imm) = .error .memoryOperandUnsupported := by
  obtain ⟨v, hv, -⟩ := sourceValue_imm s himm
  exact operands_dest_error hv (destReg_namesMemory h)

theorem operands_imm_absent (s : State) (dst : Rm) : s.operands dst (.imm .absent) = .error .immediateAbsent :=
  operands_source_error rfl dst

/-- With `s = 1` and `w = 0` an instruction holds no immediate byte (R62). -/
theorem imm_absent_of_fits {imm : Imm} (h : imm.fits true .byte = true) : imm = .absent := by
  cases imm with
  | absent => rfl
  | imm8 b => cases h
  | imm16 v => cases h

/-! ### A fault of the operand checks is the fault of phase one -/

section
variable {s : State} {dst : Rm} {src : Source} {k : FaultKind} (h : s.operands dst src = .error k)
include h

theorem movEffects_of_operands_error : s.movEffects dst src = .error k := by
  simp only [State.movEffects, h]

theorem aluEffects_of_operands_error (op : AluOp) (w : Width) : s.aluEffects op w dst src = .error k := by
  simp only [State.aluEffects, h]

theorem cmpEffects_of_operands_error (w : Width) : s.cmpEffects w dst src = .error k := by
  simp only [State.cmpEffects, h]

end

/-! ### The obligations -/

/-- Settles O33: every instruction is listed whatever its phase one gives, and listing writes `ip` and the
trace alone. -/
theorem decodeOnlyListsEveryInstruction : Obligations.DecodeOnlyListsEveryInstruction := by
  intro i s hmode
  exact ⟨s.list i, exec_decodeOnly hmode i, get_congr (list_regs s i), list_flags s i, list_advanced s i⟩

/-- Settles O41: a memory operand fails the operand checks as source and as destination alike, and phase one of
each form hands that fault on. -/
theorem memoryOperandsFault : Obligations.MemoryOperandsFault := by
  intro s hmode
  refine ⟨fun d w rm reg hmem => ?_, fun w rm imm hmem himm => ?_, fun w addr => ?_⟩
  · have hops := operands_rmReg_namesMemory s d reg hmem
    exact ⟨exec_faultTaken hmode (movEffects_of_operands_error hops),
      exec_faultTaken hmode (aluEffects_of_operands_error hops .add w),
      exec_faultTaken hmode (aluEffects_of_operands_error hops .sub w),
      exec_faultTaken hmode (cmpEffects_of_operands_error hops w)⟩
  · have hops := operands_imm_namesMemory s hmem himm
    exact ⟨exec_faultTaken hmode (movEffects_of_operands_error hops), fun sx =>
      ⟨exec_faultTaken hmode (aluEffects_of_operands_error hops .add w),
        exec_faultTaken hmode (aluEffects_of_operands_error hops .sub w),
        exec_faultTaken hmode (cmpEffects_of_operands_error hops w)⟩⟩
  · have hdirect : namesMemory (.direct addr) = true := rfl
    have hload := operands_rmReg_namesMemory s true (accOf w) hdirect
    have hstore := operands_rmReg_namesMemory s false (accOf w) hdirect
    exact ⟨exec_faultTaken hmode (movEffects_of_operands_error hload),
      exec_faultTaken hmode (movEffects_of_operands_error hstore)⟩

/-- Settles O42: the source is checked before the destination, so the absent immediate is reported whatever the
r/m operand is. -/
theorem absentImmediatesFaultFirst : Obligations.AbsentImmediatesFaultFirst := by
  intro s rm imm hmode hfits
  obtain rfl := imm_absent_of_fits hfits
  have hops := operands_imm_absent s rm
  exact ⟨exec_faultTaken hmode (aluEffects_of_operands_error hops .add .byte),
    exec_faultTaken hmode (aluEffects_of_operands_error hops .sub .byte),
    exec_faultTaken hmode (cmpEffects_of_operands_error hops .byte)⟩

/-- Settles O20: the step is `takeHalt`, which writes `STATUS` alone. -/
theorem stepAtBufferEndHalts : Obligations.StepAtBufferEndHalts := by
  intro s hrun hend
  exact ⟨s.takeHalt, step_bufferEnd hrun hend, takeHalt_status s, takeHalt_faultRec s, get_congr (takeHalt_regs s),
    takeHalt_flags s, takeHalt_ip s, sameProgram_of_params (takeHalt_params s), takeHalt_trace s⟩

end Sys2Proof.Machine
end

section
/-! The flag-computation unit (spec/42_arithmetic.md R105): the two readings of S and of P, by the sign and the parity
of the result and by bits 15 and 0 of its pattern, and the frame of `set_flags_from_result`. -/

namespace Sys2Proof.Machine

/-! ### The bits of a result's pattern -/

theorem signed16_unsigned16 {x : Int} (hlo : -32768 ≤ x) (hhi : x ≤ 32767) : signed16 (unsigned16 x) = x :=
  BitVec.toInt_ofInt_eq_self (by decide) hlo (by omega)

/-- Bit 15 of a pattern is the sign of its reading as an `i16` (R7). -/
theorem getLsbD_fifteen_eq (v : Word) : v.getLsbD 15 = decide (signed16 v < 0) :=
  (BitVec.msb_eq_getLsbD_last v).symm.trans BitVec.msb_eq_toInt

/-- The modulus 65536 is even, so the pattern of any integer keeps its parity. -/
theorem getLsbD_zero_unsigned16 (x : Int) : (unsigned16 x).getLsbD 0 = decide (x % 2 = 1) := by
  rw [← BitVec.testBit_toNat, Nat.testBit_zero, unsigned16, BitVec.toNat_ofInt]
  exact decide_eq_decide.2 (by omega)

/-! ### The frame of `set_flags_from_result` -/

theorem setFlagsFromResult_sameControl (s : State) (res : Int) : s.SameControl (s.setFlagsFromResult res) :=
  ⟨setFlagsFromResult_status s res, setFlagsFromResult_faultRec s res,
    sameProgram_of_params (setFlagsFromResult_params s res)⟩

theorem flagsFrom_bit_high (F : Byte) (res : Int) {k : Nat} (hk : 5 ≤ k) :
    (flagsFrom F res).getLsbD k = F.getLsbD k := by
  rw [flagsFrom_bit, if_neg (by omega), if_neg (by omega), if_neg (by omega)]

/-! ### The obligation -/

/-- Settles O16: the flags by `getFlag_setFlagsFromResult`; only the reading of S by bit 15 needs the bounds of an
`i16`. -/
theorem flagsFollowTheResult : Obligations.FlagsFollowTheResult := by
  intro s res hlo hhi
  have hflag := getFlag_setFlagsFromResult s res
  have hsign : (unsigned16 res).getLsbD 15 = decide (res < 0) := by
    rw [getLsbD_fifteen_eq, signed16_unsigned16 hlo hhi]
  have heven : (!(unsigned16 res).getLsbD 0) = decide (res % 2 = 0) := by
    rw [getLsbD_zero_unsigned16, ← decide_not]
    exact decide_eq_decide.2 (by omega)
  exact ⟨hflag .z, hflag .s, (hflag .s).trans hsign.symm, hflag .p, (hflag .p).trans heven.symm, hflag .c, hflag .o,
    fun k hk => flagsFrom_bit_high s.flags res hk, get_congr (setFlagsFromResult_regs s res),
    setFlagsFromResult_ip s res, setFlagsFromResult_sameControl s res⟩

end Sys2Proof.Machine
end

section
/-! Conditional jumps and loops (spec/43_control_transfer.md R119): what a member of the family records, and when it
falls through. -/

namespace Sys2Proof.Machine

/-! ### A member's record and its phase one -/

theorem jcc_record (j : Jcc) (rel : Byte) : (Jcc.instr j rel).record = recordJump j rel := by cases j <;> rfl

/-- Only `jne` consults a flag: with Z = 1 it asks for as little as the members that never jump (R119, R126). -/
theorem phaseOne_jcc {j : Jcc} {rel : Byte} {s : State} (hz : j = .jne → s.getFlag .z = true) :
    phaseOne (Jcc.instr j rel) s = .ok {} := by
  cases j
  case jne => exact if_pos (hz rfl)
  all_goals rfl

/-! ### An instruction without effects falls through -/

/-- In `EXECUTE` the effects of phase one are committed (R94). -/
theorem exec_ok {i : Instr} {s : State} {e : Effects} (h : s.params.execMode = .execute)
    (he : phaseOne i s = .ok e) : exec i s = .next (s.commit i e) := by
  rw [exec_eq_perform, he, perform_ok h]

theorem commit_noEffects_fellThrough (s : State) (i : Instr) : s.FellThrough (s.commit i {}) i :=
  ⟨get_congr (by simp), by simp, commit_advanced s i {} rfl⟩

/-! ### The obligation -/

/-- Settles O49: the displacement by `signed16_sext16`; a member that does not jump commits no effects. -/
theorem otherJumpsAndLoopsFallThrough : Obligations.OtherJumpsAndLoopsFallThrough := by
  refine ⟨fun j rel => ⟨jcc_len j rel, ?_⟩, fun j rel s hmode hz => ?_⟩
  · rw [jcc_record, recordJump, relOf, signed16_sext16]
  · exact ⟨_, exec_ok hmode (phaseOne_jcc hz), commit_noEffects_fellThrough s _⟩

end Sys2Proof.Machine
end

section
/-! Exceptions (spec/60_exceptions.md R146): a fault is taken precisely wherever a step raises it. -/

namespace Sys2Proof.Machine

/-- An instruction writes `STATUS` only by taking a fault: listing and committing leave it as it was (R90, R94). -/
theorem exec_sameStatus_or_faultTaken {i : Instr} {s t : State} (h : exec i s = .next t) :
    t.status = s.status ∨ ∃ k, s.FaultTaken t k := by
  obtain ⟨-, rfl⟩ | ⟨-, k, -, rfl⟩ | ⟨-, e, -, rfl⟩ := exec_cases h
  · exact .inl (list_status s i)
  · exact .inr ⟨k, takeFault_precise s k⟩
  · exact .inl (commit_status s i e)

/-- Settles O25: the halting step ends in HALT, a decode fault is taken by `takeFault`, and an instruction that starts
in RUN ends in FAULT only by taking a fault. -/
theorem faultsArePrecise : Obligations.FaultsArePrecise := by
  intro s t h hfault
  obtain ⟨hrun, hcase⟩ := step_cases h
  refine ⟨hrun, ?_⟩
  obtain ⟨-, rfl⟩ | ⟨-, k, -, rfl⟩ | ⟨-, i, -, hexec⟩ := hcase
  · rw [takeHalt_status] at hfault
    cases hfault
  · exact ⟨decodeFaultKind k, takeFault_precise s _⟩
  · refine (exec_sameStatus_or_faultTaken hexec).resolve_left fun hsame => ?_
    rw [hsame, hrun] at hfault
    cases hfault

end Sys2Proof.Machine
end

section
/-! Decoding an encoding (spec/30_encoding.md R53-R68): the matcher and the flags on an encoded opcode byte, and then
one lemma per decoder that reads an encoding back. -/

namespace Sys2Proof.Machine

/-! ### The opcode byte of an encoding -/

theorem widthOf_bit (w : Width) : widthOf (w.bit.getLsbD 0) = w := by cases w <;> rfl

/-- The w flag of an opcode byte is bit 0. -/
theorem widthOf_opcode (p : BitVec 7) (w : Width) : widthOf ((p ++ w.bit : Byte).getLsbD 0) = w := by
  rw [BitVec.getLsbD_append, if_pos Nat.one_pos, widthOf_bit]

/-- The d or s flag of an opcode byte is bit 1. -/
theorem getLsbD_append_one (p : BitVec 6) (d : Bool) (x : BitVec 1) :
    (p ++ BitVec.ofBool d ++ x : Byte).getLsbD 1 = d := by
  rw [BitVec.getLsbD_append, if_neg (by decide), BitVec.getLsbD_append, if_pos (by decide)]
  cases d <;> rfl

/-- The reg field of `MOV_IMM_REG` is the low three bits, its w flag is bit 3 (R65). -/
theorem movImmReg_fields (w : Width) (f : BitVec 3) :
    widthOf ((0b1011#4 ++ w.bit ++ f : Byte).getLsbD 3) = w ∧ (0b1011#4 ++ w.bit ++ f : Byte).extractLsb' 0 3 = f := by
  cases w <;> revert f <;> decide

/-! ### Operands read back from their bytes -/

/-- Bytes that stand behind others are read at their own places. -/
theorem byteAt_append_length (xs ys : List Byte) (k : Nat) : byteAt (xs ++ ys) (xs.length + k) = byteAt ys k := by
  simp only [byteAt, List.getD_eq_getElem?_getD, List.getElem?_append_right (Nat.le_add_right _ _),
    Nat.add_sub_cancel_left]

theorem dispLen_rm {w : Width} {rm : Rm} (h : rm.fits w = true) : dispLen rm.mod rm.field = rm.dispBytes := by
  rcases rm with r | ⟨eac, _ | _ | _⟩ | a
  case mem.absent => cases eac with | bp => cases h | _ => rfl
  all_goals rfl

/-- `rm_operand` reads an r/m operand back from its fields and its displacement bytes (R58). -/
theorem rmOperand_bytes {w : Width} {rm : Rm} (h : rm.fits w = true) (tail : List Byte) :
    rmOperand rm.mod rm.field w (byteAt (rm.bytes ++ tail) 0) (byteAt (rm.bytes ++ tail) 1) = rm := by
  rcases rm with r | ⟨eac, _ | b | v⟩ | a
  case reg =>
    obtain rfl : r.width = w := by simpa [Rm.fits] using h
    exact congrArg Rm.reg (regTab_field r)
  case mem.absent => cases eac with | bp => cases h | _ => rfl
  case mem.disp8 => exact congrArg (Rm.mem · _) (eacTab_field eac)
  case mem.disp16 => exact congrArg₂ (fun e v => Rm.mem e (.disp16 v)) (eacTab_field eac) (le16_low_high v)
  case direct => exact congrArg Rm.direct (le16_low_high a)

/-- `imm(q, k)` reads an immediate back from its bytes (R60). -/
theorem immAt_bytes {s : Bool} {w : Width} {imm : Imm} (h : imm.fits s w = true) (xs tail : List Byte) :
    immAt (xs ++ (imm.bytes ++ tail)) xs.length (immLen s w) = imm := by
  have h0 := byteAt_append_length xs (imm.bytes ++ tail) 0
  have h1 := byteAt_append_length xs (imm.bytes ++ tail) 1
  rw [← Laws.EncodedLength.immBytes_length h]
  cases imm with
  | absent => rfl
  | imm8 b => exact congrArg Imm.imm8 h0
  | imm16 v => exact congrArg Imm.imm16 ((congrArg₂ le16 h0 h1).trans (le16_low_high v))

/-- The immediate of a form with a mode byte stands behind the displacement (R62). -/
theorem immAt_behind_rm {s : Bool} {w : Width} {imm : Imm} (h : imm.fits s w = true) (b0 b1 : Byte) (rm : Rm)
    (tail : List Byte) :
    immAt (b0 :: b1 :: (rm.bytes ++ (imm.bytes ++ tail))) (2 + rm.dispBytes) (immLen s w) = imm := by
  have hbytes := immAt_bytes h (b0 :: b1 :: rm.bytes) tail
  rw [List.length_cons, List.length_cons, Laws.EncodedLength.rmBytes_length, Nat.add_assoc, Nat.add_comm] at hbytes
  exact hbytes

/-- The immediate of a form without a mode byte stands behind the opcode byte (R65, R66). -/
theorem immAt_behind_opcode {w : Width} {imm : Imm} (h : imm.fits false w = true) (b0 : Byte) (tail : List Byte) :
    immAt (b0 :: (imm.bytes ++ tail)) 1 (immLen false w) = imm :=
  immAt_bytes h [b0] tail

/-! ### The decoders of two bytes and more, on their first two bytes -/

section
variable (b0 b1 : Byte) (tl : List Byte)

theorem decodeRmReg_cons (mk : Bool → Width → Rm → Reg → Instr) :
    decodeRmReg mk (b0 :: b1 :: tl) =
      need (b0 :: b1 :: tl) (2 + dispLen (modOf b1) (rmOf b1)) (.ok (mk (b0.getLsbD 1) (widthOf (b0.getLsbD 0))
        (rmOperand (modOf b1) (rmOf b1) (widthOf (b0.getLsbD 0)) (byteAt tl 0) (byteAt tl 1))
        (regTab (widthOf (b0.getLsbD 0)) (regOf b1)))) :=
  need_ok (by simp) _

theorem decodeMovImmRm_cons :
    decodeMovImmRm (b0 :: b1 :: tl) =
      if regOf b1 ≠ 0b000 then .error .unknownOpcode
      else need (b0 :: b1 :: tl) (2 + dispLen (modOf b1) (rmOf b1) + immLen false (widthOf (b0.getLsbD 0)))
        (.ok (.movImmRm (widthOf (b0.getLsbD 0))
          (rmOperand (modOf b1) (rmOf b1) (widthOf (b0.getLsbD 0)) (byteAt tl 0) (byteAt tl 1))
          (immAt (b0 :: b1 :: tl) (2 + dispLen (modOf b1) (rmOf b1)) (immLen false (widthOf (b0.getLsbD 0)))))) :=
  need_ok (by simp) _

theorem decodeArithImmRm_none (h : arithOf (regOf b1) = none) :
    decodeArithImmRm (b0 :: b1 :: tl) = .error .unknownOpcode := by
  rw [decodeArithImmRm, need_ok (by simp)]
  simp only [byteAt, List.getD_cons_succ, List.getD_cons_zero, h]

theorem decodeArithImmRm_some {mk : Bool → Width → Rm → Imm → Instr} (h : arithOf (regOf b1) = some mk) :
    decodeArithImmRm (b0 :: b1 :: tl) =
      need (b0 :: b1 :: tl) (2 + dispLen (modOf b1) (rmOf b1) + immLen (b0.getLsbD 1) (widthOf (b0.getLsbD 0)))
        (.ok (mk (b0.getLsbD 1) (widthOf (b0.getLsbD 0))
          (rmOperand (modOf b1) (rmOf b1) (widthOf (b0.getLsbD 0)) (byteAt tl 0) (byteAt tl 1))
          (immAt (b0 :: b1 :: tl) (2 + dispLen (modOf b1) (rmOf b1))
            (immLen (b0.getLsbD 1) (widthOf (b0.getLsbD 0)))))) := by
  rw [decodeArithImmRm, need_ok (by simp)]
  simp only [byteAt, List.getD_cons_succ, List.getD_cons_zero, h]

theorem decodeMovImmReg_cons :
    decodeMovImmReg (b0 :: tl) = need (b0 :: tl) (1 + immLen false (widthOf (b0.getLsbD 3)))
      (.ok (.movImmReg (widthOf (b0.getLsbD 3)) (regTab (widthOf (b0.getLsbD 3)) (b0.extractLsb' 0 3))
        (immAt (b0 :: tl) 1 (immLen false (widthOf (b0.getLsbD 3)))))) := rfl

theorem decodeImmAcc_cons (mk : Width → Imm → Instr) :
    decodeImmAcc mk (b0 :: tl) = need (b0 :: tl) (1 + immLen false (widthOf (b0.getLsbD 0)))
      (.ok (mk (widthOf (b0.getLsbD 0)) (immAt (b0 :: tl) 1 (immLen false (widthOf (b0.getLsbD 0)))))) := rfl

theorem decodeDirectAcc_cons (mk : Width → Word → Instr) :
    decodeDirectAcc mk (b0 :: tl) = need (b0 :: tl) 3
      (.ok (mk (widthOf (b0.getLsbD 0)) (le16 (byteAt tl 0) (byteAt tl 1)))) := rfl

end

/-! ### One lemma per decoder -/

section
variable {w : Width} {rm : Rm} {reg : Reg} {imm : Imm}

theorem decodeRmReg_encode (mk : Bool → Width → Rm → Reg → Instr) (p : BitVec 6) (d : Bool) (hrm : rm.fits w = true)
    (hreg : reg.width = w) (rest : List Byte) :
    decodeRmReg mk (encodeRmReg p d w rm reg ++ rest) = .ok (mk d w rm reg) := by
  have hlen := Laws.EncodedLength.rmBytes_length rm
  have hw := widthOf_opcode (p ++ BitVec.ofBool d) w
  rw [encodeRmReg, List.cons_append, List.cons_append, decodeRmReg_cons, modeByte, modOf_append, rmOf_append,
    regOf_append, dispLen_rm hrm, getLsbD_append_one, hw, rmOperand_bytes hrm, need_ok (by simp; omega)]
  rw [← hreg, regTab_field]

theorem decodeMovImmRm_encode (hrm : rm.fits w = true) (himm : imm.fits false w = true) (rest : List Byte) :
    decodeMovImmRm (encode (.movImmRm w rm imm) ++ rest) = .ok (.movImmRm w rm imm) := by
  have hnd := Laws.EncodedLength.rmBytes_length rm
  have hk := Laws.EncodedLength.immBytes_length himm
  have hw := widthOf_opcode 0b1100011#7 w
  rw [encode, List.cons_append, List.cons_append, List.append_assoc, decodeMovImmRm_cons, modeByte, modOf_append,
    rmOf_append, regOf_append, if_neg (by decide), dispLen_rm hrm, hw, rmOperand_bytes hrm, immAt_behind_rm himm,
    need_ok (by simp; omega)]

theorem decodeArithImmRm_encode {mk : Bool → Width → Rm → Imm → Instr} {sel : BitVec 3} (hmk : arithOf sel = some mk)
    {s : Bool} (hrm : rm.fits w = true) (himm : imm.fits s w = true) (rest : List Byte) :
    decodeArithImmRm (encodeArithImm sel s w rm imm ++ rest) = .ok (mk s w rm imm) := by
  have hnd := Laws.EncodedLength.rmBytes_length rm
  have hk := Laws.EncodedLength.immBytes_length himm
  have hw := widthOf_opcode (0b100000#6 ++ BitVec.ofBool s) w
  have hsel : arithOf (regOf (modeByte rm sel)) = some mk := by rw [modeByte, regOf_append, hmk]
  rw [encodeArithImm, List.cons_append, List.cons_append, List.append_assoc, decodeArithImmRm_some _ _ _ hsel, modeByte,
    modOf_append, rmOf_append, dispLen_rm hrm, getLsbD_append_one, hw, rmOperand_bytes hrm, immAt_behind_rm himm,
    need_ok (by simp; omega)]

theorem decodeMovImmReg_encode (hreg : reg.width = w) (himm : imm.fits false w = true) (rest : List Byte) :
    decodeMovImmReg (encode (.movImmReg w reg imm) ++ rest) = .ok (.movImmReg w reg imm) := by
  have hk := Laws.EncodedLength.immBytes_length himm
  obtain ⟨hw, hf⟩ := movImmReg_fields w reg.field
  rw [encode, List.cons_append, decodeMovImmReg_cons, hw, hf, immAt_behind_opcode himm, need_ok (by simp; omega),
    ← hreg, regTab_field]

theorem decodeImmAcc_encode (mk : Width → Imm → Instr) (p : BitVec 7) (himm : imm.fits false w = true)
    (rest : List Byte) : decodeImmAcc mk ((p ++ w.bit) :: imm.bytes ++ rest) = .ok (mk w imm) := by
  have hk := Laws.EncodedLength.immBytes_length himm
  rw [List.cons_append, decodeImmAcc_cons, widthOf_opcode, immAt_behind_opcode himm, need_ok (by simp; omega)]

theorem decodeDirectAcc_encode (mk : Width → Word → Instr) (p : BitVec 7) (w : Width) (addr : Word)
    (rest : List Byte) : decodeDirectAcc mk ((p ++ w.bit) :: wordBytes addr ++ rest) = .ok (mk w addr) := by
  rw [List.cons_append, decodeDirectAcc_cons, widthOf_opcode, need_ok (by simp [wordBytes])]
  exact congrArg (fun a => Except.ok (mk w a)) (le16_low_high addr)

theorem decodeJcc_pair (j : Jcc) (b0 rel : Byte) (rest : List Byte) :
    decodeJcc j (b0 :: rel :: rest) = .ok (j.instr rel) :=
  need_ok (by simp) _

end

/-! ### The class of an encoded opcode byte -/

/-- The matcher finds an instruction's class in the first byte of its encoding (R50, R68). -/
theorem matchBits_encode (i : Instr) :
    ∃ b0 tl n, encode i = b0 :: tl ∧ matchBits b0 = some (i.record.cls, n) := by
  cases i
  case movRmReg d w _ _ | addRmReg d w _ _ | subRmReg d w _ _ | cmpRmReg d w _ _ =>
    cases d <;> cases w <;> exact ⟨_, _, _, rfl, rfl⟩
  case addImmRm s w _ _ | subImmRm s w _ _ | cmpImmRm s w _ _ =>
    cases s <;> cases w <;> exact ⟨_, _, _, rfl, rfl⟩
  case movImmRm w _ _ | movMemAcc w _ | movAccMem w _ | addImmAcc w _ | subImmAcc w _ | cmpImmAcc w _ =>
    cases w <;> exact ⟨_, _, _, rfl, rfl⟩
  case movImmReg w reg _ =>
    cases w <;> cases reg <;> exact ⟨_, _, _, rfl, rfl⟩
  all_goals exact ⟨_, _, _, rfl, rfl⟩

/-- The matcher's answer decides the decoder (R78). -/
theorem decode_cons {b0 : Byte} {c : OpClass} {n : Nat} (h : matchBits b0 = some (c, n)) (tl : List Byte) :
    decode (b0 :: tl) = decodeClass c (b0 :: tl) := by
  simp only [decode, h]

theorem decode_encode_append (i : Instr) (rest : List Byte) :
    decode (encode i ++ rest) = decodeClass i.record.cls (encode i ++ rest) := by
  obtain ⟨b0, tl, n, henc, hmatch⟩ := matchBits_encode i
  rw [henc, List.cons_append, decode_cons hmatch]

/-! ### The obligation -/

/-- Settles O1: the matcher finds the class in the opcode byte, and the class's decoder reads the fields back. -/
theorem decodeOfEncodeIsTheInstruction : Obligations.DecodeOfEncodeIsTheInstruction := by
  intro i rest hwf
  rw [decode_encode_append]
  cases i <;> simp only [Instr.wf, Bool.and_eq_true, decide_eq_true_eq] at hwf
  case movRmReg | addRmReg | subRmReg | cmpRmReg => exact decodeRmReg_encode _ _ _ hwf.1 hwf.2 rest
  case movImmRm => exact decodeMovImmRm_encode hwf.1 hwf.2 rest
  case movImmReg => exact decodeMovImmReg_encode hwf.1 hwf.2 rest
  case movMemAcc | movAccMem => exact decodeDirectAcc_encode _ _ _ _ rest
  case addImmRm | subImmRm | cmpImmRm => exact decodeArithImmRm_encode rfl hwf.1 hwf.2 rest
  case addImmAcc | subImmAcc | cmpImmAcc => exact decodeImmAcc_encode _ _ hwf rest
  all_goals exact decodeJcc_pair _ _ _ rest

end Sys2Proof.Machine
end

section
/-! What a successful decode says of the bytes it read (spec/30_encoding.md R41, R54-R71): they are the encoding of the
instruction, which is well formed, and no byte behind them matters. -/

namespace Sys2Proof.Machine

/-! ### The class of a byte by ranges (R50, R73) -/

/-- The members with the opcodes 0x70 to 0x7F, in their order (R68). -/
def jumpMembers : List Jcc :=
  [.jo, .jno, .jb, .jnb, .je, .jne, .jbe, .ja, .js, .jns, .jp, .jnp, .jl, .jnl, .jle, .jg]

/-- The class of a first byte by the ranges of R73: each range begins at a multiple of 4 and a class fills 2, 4, 8 or 16
bytes of it. -/
def rangeClass (n : Nat) : Option OpClass :=
  match n / 4 with
  | 0x00 => some .addRmReg
  | 0x01 => if n % 4 < 2 then some .addImmAcc else none
  | 0x0A => some .subRmReg
  | 0x0B => if n % 4 < 2 then some .subImmAcc else none
  | 0x0E => some .cmpRmReg
  | 0x0F => if n % 4 < 2 then some .cmpImmAcc else none
  | 0x1C | 0x1D | 0x1E | 0x1F => (jumpMembers[n - 0x70]?).map .jcc
  | 0x20 => some .arithImmRm
  | 0x22 => some .movRmReg
  | 0x28 => if n % 4 < 2 then some .movMemAcc else some .movAccMem
  | 0x2C | 0x2D | 0x2E | 0x2F => some .movImmReg
  | 0x31 => if n % 4 < 2 then none else some .movImmRm
  | 0x38 => ([Jcc.loopnz, .loopz, .loop, .jcxz][n - 0xE0]?).map .jcc
  | _ => none

/-- The matcher's answer to each of the 256 bytes, computed once: what needs the class of a byte cites `rangeClass`. -/
theorem matchBits_class (b0 : Byte) : (matchBits b0).map (·.1) = rangeClass b0.toNat := by revert b0; decide +kernel

theorem matchBits_isSome (b0 : Byte) : (matchBits b0).isSome = (rangeClass b0.toNat).isSome := by
  rw [← matchBits_class, Option.isSome_map]

theorem rangeClass_of_matchBits {b0 : Byte} {c : OpClass} {n : Nat} (h : matchBits b0 = some (c, n)) :
    rangeClass b0.toNat = some c := by
  rw [← matchBits_class, h, Option.map_some]

/-! ### Bytes from their operands -/

theorem take_one {bs : List Byte} (h : 1 ≤ bs.length) : bs.take 1 = [byteAt bs 0] := by
  obtain _ | ⟨b0, tl⟩ := bs
  · cases h
  · rfl

theorem take_two {bs : List Byte} (h : 2 ≤ bs.length) : bs.take 2 = [byteAt bs 0, byteAt bs 1] := by
  obtain _ | ⟨b0, _ | ⟨b1, tl⟩⟩ := bs
  · cases h
  · simp at h
  · rfl

theorem wordBytes_le16 (lo hi : Byte) : wordBytes (le16 lo hi) = [lo, hi] := by
  rw [wordBytes, lowByte_le16, highByte_le16]

/-- Everything `rm_operand` can give, by the mode byte's fields (R58). -/
theorem rmOperand_cases (m : BitVec 2) (f : BitVec 3) (w : Width) (d0 d1 : Byte) :
    (m = 0b11 ∧ rmOperand m f w d0 d1 = .reg (regTab w f)) ∨
    (m = 0b00 ∧ f = 0b110 ∧ rmOperand m f w d0 d1 = .direct (le16 d0 d1)) ∨
    (m = 0b00 ∧ f ≠ 0b110 ∧ rmOperand m f w d0 d1 = .mem (eacTab f) .absent) ∨
    (m = 0b01 ∧ rmOperand m f w d0 d1 = .mem (eacTab f) (.disp8 d0)) ∨
    (m = 0b10 ∧ rmOperand m f w d0 d1 = .mem (eacTab f) (.disp16 (le16 d0 d1))) := by
  unfold rmOperand
  split
  · next h3 => exact .inl ⟨h3, rfl⟩
  · next h3 =>
    split
    · next hd => exact .inr (.inl ⟨hd.1, hd.2, rfl⟩)
    · next hd =>
      split
      · next h0 => exact .inr (.inr (.inl ⟨h0, fun hf => hd ⟨h0, hf⟩, rfl⟩))
      · next h0 =>
        split
        · next h1 => exact .inr (.inr (.inr (.inl ⟨h1, rfl⟩)))
        · next h1 => exact .inr (.inr (.inr (.inr ⟨mod_two h3 h0 h1, rfl⟩)))

/-- The mod and the rm field of the operand that `rm_operand` gives. -/
theorem rmOperand_fields (m : BitVec 2) (f : BitVec 3) (w : Width) (d0 d1 : Byte) :
    (rmOperand m f w d0 d1).mod = m ∧ (rmOperand m f w d0 d1).field = f := by
  obtain ⟨rfl, h⟩ | ⟨rfl, rfl, h⟩ | ⟨rfl, -, h⟩ | ⟨rfl, h⟩ | ⟨rfl, h⟩ := rmOperand_cases m f w d0 d1 <;> rw [h]
  · exact ⟨rfl, field_regTab w f⟩
  · exact ⟨rfl, rfl⟩
  all_goals exact ⟨rfl, field_eacTab f⟩

theorem modeByte_rmOperand (b1 : Byte) (w : Width) (d0 d1 : Byte) :
    modeByte (rmOperand (modOf b1) (rmOf b1) w d0 d1) (regOf b1) = b1 := by
  obtain ⟨hmod, hfield⟩ := rmOperand_fields (modOf b1) (rmOf b1) w d0 d1
  rw [modeByte, hmod, hfield, modeFields]

/-- `[bp]` without a displacement is no result of `rm_operand`: its fields are those of the direct address. -/
theorem rmOperand_fits (m : BitVec 2) (f : BitVec 3) (w : Width) (d0 d1 : Byte) :
    (rmOperand m f w d0 d1).fits w = true := by
  obtain ⟨-, h⟩ | ⟨-, -, h⟩ | ⟨-, hf, h⟩ | ⟨-, h⟩ | ⟨-, h⟩ := rmOperand_cases m f w d0 d1 <;> rw [h]
  · exact decide_eq_true (regTab_width w f)
  · rfl
  · have hbp : ∀ g : BitVec 3, g ≠ 0b110 → eacTab g ≠ .bp := by decide
    cases he : eacTab f with
    | bp => exact absurd he (hbp f hf)
    | _ => rfl
  all_goals cases eacTab f <;> rfl

/-- The displacement bytes of the operand that `rm_operand` gives are the bytes it was given (R56). -/
theorem rmOperand_take (m : BitVec 2) (f : BitVec 3) (w : Width) {bs : List Byte} (h : dispLen m f ≤ bs.length) :
    (rmOperand m f w (byteAt bs 0) (byteAt bs 1)).bytes = bs.take (dispLen m f) := by
  obtain ⟨rfl, hrm⟩ | ⟨rfl, rfl, hrm⟩ | ⟨rfl, -, hrm⟩ | ⟨rfl, hrm⟩ | ⟨rfl, hrm⟩ :=
    rmOperand_cases m f w (byteAt bs 0) (byteAt bs 1) <;>
    rw [← dispBytes_rmOperand _ _ w (byteAt bs 0) (byteAt bs 1), hrm] at h ⊢
  · rfl
  · exact (wordBytes_le16 _ _).trans (take_two h).symm
  · rfl
  · exact (take_one h).symm
  · exact (wordBytes_le16 _ _).trans (take_two h).symm

theorem immLen_le_two (s : Bool) (w : Width) : immLen s w ≤ 2 := by cases s <;> cases w <;> decide

theorem immAt_fits (s : Bool) (w : Width) (bs : List Byte) (q : Nat) : (immAt bs q (immLen s w)).fits s w = true := by
  cases s <;> cases w <;> rfl

/-- The bytes of the immediate that `imm(q, k)` gives are those at `q` (R60). -/
theorem immAt_take {bs : List Byte} {q k : Nat} (hk : k ≤ 2) (h : q + k ≤ bs.length) :
    (immAt bs q k).bytes = (bs.drop q).take k := by
  have hdrop : k ≤ (bs.drop q).length := by rw [List.length_drop]; omega
  have hbyte : ∀ j, byteAt (bs.drop q) j = byteAt bs (q + j) := by
    intro j
    simp [byteAt]
  match k with
  | 0 => rfl
  | 1 => rw [take_one hdrop, hbyte]; rfl
  | 2 => rw [take_two hdrop, hbyte, hbyte]; exact wordBytes_le16 _ _

/-- The opcode byte of a class with the flags and the field of `b0` (R50). -/
def opcodeWith (c : OpClass) (b0 : Byte) : Byte :=
  let wbit := (widthOf (b0.getLsbD 0)).bit
  let dbit := BitVec.ofBool (b0.getLsbD 1)
  match c with
  | .movRmReg => 0b100010#6 ++ dbit ++ wbit
  | .movImmRm => 0b1100011#7 ++ wbit
  | .movImmReg => 0b1011#4 ++ (widthOf (b0.getLsbD 3)).bit ++ b0.extractLsb' 0 3
  | .movMemAcc => 0b1010000#7 ++ wbit
  | .movAccMem => 0b1010001#7 ++ wbit
  | .addRmReg => 0b000000#6 ++ dbit ++ wbit
  | .addImmAcc => 0b0000010#7 ++ wbit
  | .subRmReg => 0b001010#6 ++ dbit ++ wbit
  | .subImmAcc => 0b0010110#7 ++ wbit
  | .cmpRmReg => 0b001110#6 ++ dbit ++ wbit
  | .cmpImmAcc => 0b0011110#7 ++ wbit
  | .arithImmRm => 0b100000#6 ++ dbit ++ wbit
  | .jcc j => j.opcode

/-- A byte is the opcode byte of the class it matches, with its own flags and field. -/
theorem opcodeWith_matchBits {b0 : Byte} {c : OpClass} {n : Nat} (h : matchBits b0 = some (c, n)) :
    opcodeWith c b0 = b0 := by
  have hall : ∀ b : Byte, ((rangeClass b.toNat).all fun c => opcodeWith c b == b) = true := by decide +kernel
  simpa [rangeClass_of_matchBits h] using hall b0

/-! ### One lemma per decoder -/

/-- The instruction is well formed and the bytes begin with its encoding, as many as its length. -/
def ReadFrom (bs : List Byte) (i : Instr) : Prop := i.wf = true ∧ bs.take i.len = encode i

/-- A list of two bytes and more. -/
theorem exists_cons_cons {bs : List Byte} (h : 2 ≤ bs.length) : ∃ b0 b1 tl, bs = b0 :: b1 :: tl := by
  obtain _ | ⟨b0, _ | ⟨b1, tl⟩⟩ := bs
  · cases h
  · simp at h
  · exact ⟨b0, b1, tl, rfl⟩

theorem readFrom_rmReg {mk : Bool → Width → Rm → Reg → Instr} {p : BitVec 6} {b0 : Byte} {tl : List Byte} {i : Instr}
    (hwf : ∀ d w rm reg, (mk d w rm reg).wf = (rm.fits w && reg.width = w))
    (hlen : ∀ d w rm reg, (mk d w rm reg).len = 2 + rm.dispBytes)
    (henc : ∀ d w rm reg, encode (mk d w rm reg) = encodeRmReg p d w rm reg)
    (hb0 : p ++ BitVec.ofBool (b0.getLsbD 1) ++ (widthOf (b0.getLsbD 0)).bit = b0)
    (h : decodeRmReg mk (b0 :: tl) = .ok i) : ReadFrom (b0 :: tl) i := by
  obtain ⟨h2, -⟩ := need_cases h
  obtain ⟨_, b1, tl, heq⟩ := exists_cons_cons h2
  cases heq
  rw [decodeRmReg_cons] at h
  obtain ⟨hn, h⟩ := need_cases h
  cases h
  have hnd : dispLen (modOf b1) (rmOf b1) ≤ tl.length := by simp only [List.length_cons] at hn; omega
  refine ⟨by simp only [hwf, rmOperand_fits, regTab_width, decide_true, Bool.and_self], ?_⟩
  rw [hlen, henc, encodeRmReg, hb0, field_regTab, modeByte_rmOperand, rmOperand_take _ _ _ hnd, dispBytes_rmOperand,
    Nat.add_comm 2]
  rfl

/-- The bytes of a form with a mode byte and an immediate: opcode, mode byte, displacement, immediate (R62). -/
theorem take_rm_imm {b0 b1 : Byte} {tl : List Byte} {m : BitVec 2} {f : BitVec 3} {k : Nat} (w : Width) (hk : k ≤ 2)
    (h : 2 + dispLen m f + k ≤ (b0 :: b1 :: tl).length) :
    (b0 :: b1 :: tl).take (2 + dispLen m f + k) =
      b0 :: b1 :: ((rmOperand m f w (byteAt tl 0) (byteAt tl 1)).bytes ++
        (immAt (b0 :: b1 :: tl) (2 + dispLen m f) k).bytes) := by
  rw [immAt_take hk h, rmOperand_take m f w (by simp only [List.length_cons] at h; omega), List.take_add,
    Nat.add_comm 2]
  rfl

theorem readFrom_movImmRm {b0 : Byte} {tl : List Byte} {i : Instr}
    (hb0 : 0b1100011#7 ++ (widthOf (b0.getLsbD 0)).bit = b0)
    (h : decodeMovImmRm (b0 :: tl) = .ok i) : ReadFrom (b0 :: tl) i := by
  obtain ⟨h2, -⟩ := need_cases h
  obtain ⟨_, b1, tl, heq⟩ := exists_cons_cons h2
  cases heq
  rw [decodeMovImmRm_cons] at h
  split at h
  · cases h
  · next hreg =>
    obtain ⟨hn, h⟩ := need_cases h
    cases h
    have hb1 := modeByte_rmOperand b1 (widthOf (b0.getLsbD 0)) (byteAt tl 0) (byteAt tl 1)
    rw [not_not.mp hreg] at hb1
    refine ⟨by simp only [Instr.wf, rmOperand_fits, immAt_fits, Bool.and_self], ?_⟩
    rw [Instr.len, dispBytes_rmOperand, take_rm_imm (widthOf (b0.getLsbD 0)) (immLen_le_two _ _) hn, encode, hb0, hb1]

theorem readFrom_arithImmRm {b0 : Byte} {tl : List Byte} {i : Instr}
    (hb0 : 0b100000#6 ++ BitVec.ofBool (b0.getLsbD 1) ++ (widthOf (b0.getLsbD 0)).bit = b0)
    (h : decodeArithImmRm (b0 :: tl) = .ok i) : ReadFrom (b0 :: tl) i := by
  obtain ⟨h2, -⟩ := need_cases h
  obtain ⟨_, b1, tl, heq⟩ := exists_cons_cons h2
  cases heq
  cases hmk : arithOf (regOf b1) with
  | none => rw [decodeArithImmRm_none _ _ _ hmk] at h; cases h
  | some mk =>
    rw [decodeArithImmRm_some _ _ _ hmk] at h
    obtain ⟨hn, h⟩ := need_cases h
    cases h
    have hb1 := modeByte_rmOperand b1 (widthOf (b0.getLsbD 0)) (byteAt tl 0) (byteAt tl 1)
    have htake := take_rm_imm (widthOf (b0.getLsbD 0)) (immLen_le_two (b0.getLsbD 1) (widthOf (b0.getLsbD 0))) hn
    obtain ⟨hreg, rfl⟩ | ⟨hreg, rfl⟩ | ⟨hreg, rfl⟩ := arithOf_cases hmk <;> rw [hreg] at hb1 <;>
      refine ⟨by simp only [Instr.wf, rmOperand_fits, immAt_fits, Bool.and_self], ?_⟩ <;>
      rw [Instr.len, dispBytes_rmOperand, htake, encode, encodeArithImm, hb0, hb1]

theorem readFrom_movImmReg {b0 : Byte} {tl : List Byte} {i : Instr}
    (hb0 : 0b1011#4 ++ (widthOf (b0.getLsbD 3)).bit ++ b0.extractLsb' 0 3 = b0)
    (h : decodeMovImmReg (b0 :: tl) = .ok i) : ReadFrom (b0 :: tl) i := by
  rw [decodeMovImmReg_cons] at h
  obtain ⟨hn, h⟩ := need_cases h
  cases h
  refine ⟨by simp only [Instr.wf, regTab_width, immAt_fits, decide_true, Bool.and_self], ?_⟩
  rw [Instr.len, encode, field_regTab, hb0, immAt_take (immLen_le_two _ _) hn, Nat.add_comm 1]
  rfl

theorem readFrom_immAcc {mk : Width → Imm → Instr} {p : BitVec 7} {b0 : Byte} {tl : List Byte} {i : Instr}
    (hwf : ∀ w imm, (mk w imm).wf = imm.fits false w) (hlen : ∀ w imm, (mk w imm).len = 1 + immLen false w)
    (henc : ∀ w imm, encode (mk w imm) = (p ++ w.bit) :: imm.bytes)
    (hb0 : p ++ (widthOf (b0.getLsbD 0)).bit = b0)
    (h : decodeImmAcc mk (b0 :: tl) = .ok i) : ReadFrom (b0 :: tl) i := by
  rw [decodeImmAcc_cons] at h
  obtain ⟨hn, h⟩ := need_cases h
  cases h
  refine ⟨by rw [hwf, immAt_fits], ?_⟩
  rw [hlen, henc, hb0, immAt_take (immLen_le_two _ _) hn, Nat.add_comm 1]
  rfl

theorem readFrom_directAcc {mk : Width → Word → Instr} {p : BitVec 7} {b0 : Byte} {tl : List Byte} {i : Instr}
    (hwf : ∀ w addr, (mk w addr).wf = true) (hlen : ∀ w addr, (mk w addr).len = 3)
    (henc : ∀ w addr, encode (mk w addr) = (p ++ w.bit) :: wordBytes addr)
    (hb0 : p ++ (widthOf (b0.getLsbD 0)).bit = b0)
    (h : decodeDirectAcc mk (b0 :: tl) = .ok i) : ReadFrom (b0 :: tl) i := by
  rw [decodeDirectAcc_cons] at h
  obtain ⟨hn, h⟩ := need_cases h
  cases h
  have htake := take_two (bs := tl) (by simp only [List.length_cons] at hn; omega)
  exact ⟨hwf _ _, by rw [hlen, henc, hb0, wordBytes_le16, List.take_succ_cons, htake]⟩

/-- The wf, the length and the encoding of a member of the jump/loop family (R68). -/
theorem jcc_wf (j : Jcc) (rel : Byte) : (j.instr rel).wf = true := by cases j <;> rfl

theorem encode_jcc (j : Jcc) (rel : Byte) : encode (j.instr rel) = [j.opcode, rel] := by cases j <;> rfl

theorem readFrom_jcc {j : Jcc} {b0 : Byte} {tl : List Byte} {i : Instr} (hb0 : j.opcode = b0)
    (h : decodeJcc j (b0 :: tl) = .ok i) : ReadFrom (b0 :: tl) i := by
  obtain ⟨hn, h⟩ := need_cases h
  cases h
  exact ⟨jcc_wf j _, by rw [jcc_len, encode_jcc, take_two hn, hb0]; rfl⟩

/-! ### The obligations -/

/-- Every decoder reads an instruction from its encoding: the matched byte is the class's opcode byte, and each decoder
assembles the operands from the bytes behind it. -/
theorem decode_readFrom {bs : List Byte} {i : Instr} (h : decode bs = .ok i) : ReadFrom bs i := by
  obtain ⟨b0, tl, c, n, rfl, hmatch, h⟩ := decode_cases h
  have hb0 := opcodeWith_matchBits hmatch
  cases c
  case movRmReg | addRmReg | subRmReg | cmpRmReg =>
    exact readFrom_rmReg (fun _ _ _ _ => rfl) (fun _ _ _ _ => rfl) (fun _ _ _ _ => rfl) hb0 h
  case addImmAcc | subImmAcc | cmpImmAcc =>
    exact readFrom_immAcc (fun _ _ => rfl) (fun _ _ => rfl) (fun _ _ => rfl) hb0 h
  case movMemAcc | movAccMem => exact readFrom_directAcc (fun _ _ => rfl) (fun _ _ => rfl) (fun _ _ => rfl) hb0 h
  case movImmRm => exact readFrom_movImmRm hb0 h
  case movImmReg => exact readFrom_movImmReg hb0 h
  case arithImmRm => exact readFrom_arithImmRm hb0 h
  case jcc j => exact readFrom_jcc hb0 h

/-- Settles O2: the bytes are there because each decoder asks for them, and `decode_readFrom` says which they are. -/
theorem encodeOfDecodeIsTheBytesRead : Obligations.EncodeOfDecodeIsTheBytesRead := by
  intro bs i h
  exact ⟨decode_length h, (decode_readFrom h).2⟩

/-- Settles O3: the first half of `decode_readFrom`. -/
theorem decodedInstructionsAreWellFormed : Obligations.DecodedInstructionsAreWellFormed := by
  intro bs i h
  exact (decode_readFrom h).1

/-- Bytes that begin with the encoding of a well-formed instruction decode to it. -/
theorem decode_of_readFrom {bs : List Byte} {i : Instr} (h : ReadFrom bs i) : decode bs = .ok i := by
  obtain ⟨hwf, htake⟩ := h
  rw [← List.take_append_drop i.len bs, htake]
  exact decodeOfEncodeIsTheInstruction i _ hwf

/-- Settles O4: both lists begin with the encoding of the instruction. -/
theorem decodeReadsOnlyItsOwnBytes : Obligations.DecodeReadsOnlyItsOwnBytes := by
  intro bs bs' i h hsame
  obtain ⟨hwf, htake⟩ := decode_readFrom h
  exact decode_of_readFrom ⟨hwf, hsame.trans htake⟩

end Sys2Proof.Machine
end

section
/-! Decode failures (spec/30_encoding.md R57, R73, R74, R142, R143): which bytes are `UnknownOpcode`, and an instruction
cut short. -/

namespace Sys2Proof.Machine

/-! ### `UnknownOpcode` -/

/-- A check of the length is no cause of `UnknownOpcode` (R57). -/
theorem need_unknownOpcode {bs : List Byte} {n : Nat} {rest : Except DecodeFault Instr} :
    need bs n rest = .error .unknownOpcode ↔ n ≤ bs.length ∧ rest = .error .unknownOpcode := by
  unfold need
  split
  · next h => exact ⟨nofun, fun ⟨hle, _⟩ => absurd h (by omega)⟩
  · next h => exact ⟨fun hr => ⟨by omega, hr⟩, And.right⟩

theorem need_ok_ne_unknownOpcode {bs : List Byte} {n : Nat} {i : Instr} :
    need bs n (.ok i) ≠ .error .unknownOpcode := fun h => nomatch (need_unknownOpcode.mp h).2

/-- The reg field of a mode byte, as a number (R53). -/
theorem regOf_toNat (b1 : Byte) : (regOf b1).toNat = b1.toNat / 8 % 8 := by
  rw [regOf, BitVec.extractLsb'_toNat, Nat.shiftRight_eq_div_pow]

/-- No operation for the reg fields other than 000, 101 and 111 (R64). -/
theorem arithOf_eq_none {reg : BitVec 3} : arithOf reg = none ↔ reg.toNat ≠ 0 ∧ reg.toNat ≠ 5 ∧ reg.toNat ≠ 7 := by
  have hall : ∀ r : BitVec 3, (arithOf r).isNone = true ↔ r.toNat ≠ 0 ∧ r.toNat ≠ 5 ∧ r.toNat ≠ 7 := by decide
  exact Option.isNone_iff_eq_none.symm.trans (hall reg)

/-- The first bytes of the two classes whose mode byte can be illegal (R63, R64). -/
theorem rangeClass_arithImmRm (b0 : Byte) :
    rangeClass b0.toNat = some .arithImmRm ↔ 0x80 ≤ b0.toNat ∧ b0.toNat ≤ 0x83 := by
  revert b0; decide +kernel

theorem rangeClass_movImmRm (b0 : Byte) :
    rangeClass b0.toNat = some .movImmRm ↔ 0xC6 ≤ b0.toNat ∧ b0.toNat ≤ 0xC7 := by
  revert b0; decide +kernel

/-- The mode bytes that a class refuses: a reg field that selects no operation (R63, R64). -/
def refusesMode : OpClass → Byte → Prop
  | .movImmRm, b1 => regOf b1 ≠ 0b000
  | .arithImmRm, b1 => arithOf (regOf b1) = none
  | _, _ => False

theorem decodeRmReg_ne_unknownOpcode (mk : Bool → Width → Rm → Reg → Instr) (bs : List Byte) :
    decodeRmReg mk bs ≠ .error .unknownOpcode := fun h => need_ok_ne_unknownOpcode (need_unknownOpcode.mp h).2

theorem decodeMovImmRm_unknownOpcode {b0 : Byte} {tl : List Byte} :
    decodeMovImmRm (b0 :: tl) = .error .unknownOpcode ↔ ∃ b1 tl', tl = b1 :: tl' ∧ regOf b1 ≠ 0b000 := by
  obtain _ | ⟨b1, tl⟩ := tl
  · exact ⟨nofun, nofun⟩
  · rw [decodeMovImmRm_cons]
    split
    · next hreg => exact ⟨fun _ => ⟨b1, tl, rfl, hreg⟩, fun _ => rfl⟩
    · next hreg =>
      refine ⟨fun h => absurd h need_ok_ne_unknownOpcode, fun ⟨_, _, heq, h⟩ => ?_⟩
      cases heq
      exact absurd h hreg

theorem decodeArithImmRm_unknownOpcode {b0 : Byte} {tl : List Byte} :
    decodeArithImmRm (b0 :: tl) = .error .unknownOpcode ↔ ∃ b1 tl', tl = b1 :: tl' ∧ arithOf (regOf b1) = none := by
  obtain _ | ⟨b1, tl⟩ := tl
  · exact ⟨nofun, nofun⟩
  · cases hmk : arithOf (regOf b1) with
    | none =>
      rw [decodeArithImmRm_none _ _ _ hmk]
      exact ⟨fun _ => ⟨b1, tl, rfl, hmk⟩, fun _ => rfl⟩
    | some mk =>
      rw [decodeArithImmRm_some _ _ _ hmk]
      refine ⟨fun h => absurd h need_ok_ne_unknownOpcode, fun ⟨_, _, heq, h⟩ => ?_⟩
      cases heq
      rw [hmk] at h
      cases h

/-- A decoder answers `UnknownOpcode` only for a mode byte that its class refuses. -/
theorem decodeClass_unknownOpcode {c : OpClass} {b0 : Byte} {tl : List Byte} :
    decodeClass c (b0 :: tl) = .error .unknownOpcode ↔ ∃ b1 tl', tl = b1 :: tl' ∧ refusesMode c b1 := by
  cases c
  case movImmRm => exact decodeMovImmRm_unknownOpcode
  case arithImmRm => exact decodeArithImmRm_unknownOpcode
  case movRmReg | addRmReg | subRmReg | cmpRmReg =>
    exact ⟨fun h => absurd h (decodeRmReg_ne_unknownOpcode _ _), fun ⟨_, _, _, h⟩ => h.elim⟩
  all_goals exact ⟨fun h => absurd h need_ok_ne_unknownOpcode, fun ⟨_, _, _, h⟩ => h.elim⟩

/-- The refused mode bytes on the number of the reg field. -/
theorem refusesMode_iff {c : OpClass} {b1 : Byte} :
    refusesMode c b1 ↔
      (c = .arithImmRm ∧ b1.toNat / 8 % 8 ≠ 0 ∧ b1.toNat / 8 % 8 ≠ 5 ∧ b1.toNat / 8 % 8 ≠ 7) ∨
      (c = .movImmRm ∧ b1.toNat / 8 % 8 ≠ 0) := by
  rw [← regOf_toNat]
  cases c
  case arithImmRm => simp [refusesMode, arithOf_eq_none]
  case movImmRm => simp [refusesMode, ← BitVec.toNat_inj]
  all_goals simp [refusesMode]

/-- Settles O8: no pattern, or a mode byte that the class refuses; the numbers name the two classes that refuse any. -/
theorem unknownOpcodeHasThreeCauses : Obligations.UnknownOpcodeHasThreeCauses := by
  intro bs
  obtain _ | ⟨b0, rest⟩ := bs
  · exact ⟨nofun, nofun⟩
  cases hmatch : matchBits b0 with
  | none => exact ⟨fun _ => ⟨b0, rest, rfl, .inl hmatch⟩, fun _ => decode_unknownOpcode hmatch rest⟩
  | some x =>
    obtain ⟨c, n⟩ := x
    have hclass := rangeClass_of_matchBits hmatch
    have harith : c = .arithImmRm ↔ 0x80 ≤ b0.toNat ∧ b0.toNat ≤ 0x83 := by
      simpa [hclass] using rangeClass_arithImmRm b0
    have hmov : c = .movImmRm ↔ 0xC6 ≤ b0.toNat ∧ b0.toNat ≤ 0xC7 := by
      simpa [hclass] using rangeClass_movImmRm b0
    simp only [decode_cons hmatch, decodeClass_unknownOpcode, refusesMode_iff, harith, hmov, and_assoc]
    constructor
    · rintro ⟨b1, tl, rfl, h⟩
      exact ⟨b0, _, rfl, .inr ⟨b1, tl, rfl, h⟩⟩
    · rintro ⟨_, _, heq, h⟩
      cases heq
      exact h.resolve_left (by rw [hmatch]; exact Option.some_ne_none _)

/-! ### An instruction cut short -/

/-- More bytes behind it do not mend an `UnknownOpcode`: its causes lie in the first two bytes. -/
theorem decode_append_unknownOpcode {bs : List Byte} (h : decode bs = .error .unknownOpcode) (rest : List Byte) :
    decode (bs ++ rest) = .error .unknownOpcode := by
  obtain ⟨b0, tl, rfl, hcause⟩ := (unknownOpcodeHasThreeCauses bs).mp h
  refine (unknownOpcodeHasThreeCauses _).mpr ⟨b0, tl ++ rest, rfl, hcause.imp_right ?_⟩
  rintro ⟨b1, tl', rfl, hmode⟩
  exact ⟨b1, tl' ++ rest, rfl, hmode⟩

/-- A successful decode of the beginning of some bytes is one of all of them (R41). -/
theorem decode_append_ok {bs : List Byte} {i : Instr} (h : decode bs = .ok i) (rest : List Byte) :
    decode (bs ++ rest) = .ok i :=
  decodeReadsOnlyItsOwnBytes _ _ _ h (List.take_append_of_le_length (decode_length h))

/-- Settles O9: the cut bytes decode neither to an instruction, which would be this one and longer than the cut, nor to
`UnknownOpcode`, which the whole encoding would share. -/
theorem cutInstructionsAreTruncated : Obligations.CutInstructionsAreTruncated := by
  intro i n hwf _ hcut
  have hwhole : decode ((encode i).take n ++ (encode i).drop n) = .ok i := by
    have h := decodeOfEncodeIsTheInstruction i [] hwf
    rwa [List.append_nil, ← List.take_append_drop n (encode i)] at h
  cases hdec : decode ((encode i).take n) with
  | ok j =>
    have hlen := decode_length hdec
    have hsame := (decode_append_ok hdec _).symm.trans hwhole
    cases hsame
    rw [List.length_take] at hlen
    omega
  | error k =>
    cases k with
    | truncatedInstruction => rfl
    | unknownOpcode =>
      have h := (decode_append_unknownOpcode hdec _).symm.trans hwhole
      cases h

/-! ### A first byte outside the subset -/

theorem window_of_fetch {s : State} {b0 : Byte} (h : s.fetch s.ip.toNat = some b0) :
    s.ip.toNat < s.params.len.val ∧ ∃ rest, s.window = b0 :: rest := by
  have hlt : s.ip.toNat < s.params.len.val := by
    unfold State.fetch at h
    split at h
    · assumption
    · cases h
  have hbytes : ∀ k < [b0].length, s.fetch (s.ip.toNat + k) = [b0][k]? := by
    intro k hk
    obtain rfl : k = 0 := Nat.lt_one_iff.mp hk
    exact h
  have htake := window_take hbytes (Nat.le_add_left 1 5) hlt
  exact ⟨hlt, s.window.drop 1, by rw [← List.singleton_append, ← htake]; exact (List.take_append_drop 1 _).symm⟩

/-- In RUN a step whose decoding fails takes the decoder's fault (R88). -/
theorem step_decode_error {s : State} {k : DecodeFault} (hrun : s.status = .run)
    (hlt : s.ip.toNat < s.params.len.val) (hdec : decode s.window = .error k) :
    step s = .next (s.takeFault (decodeFaultKind k)) := by
  simp only [step, hrun, if_neg (Nat.not_le.mpr hlt), hdec]

/-- In RUN a step on bytes that decode is the instruction's meaning (R91). -/
theorem step_decode_ok {s : State} {i : Instr} (hrun : s.status = .run)
    (hlt : s.ip.toNat < s.params.len.val) (hdec : decode s.window = .ok i) : step s = exec i s := by
  simp only [step, hrun, if_neg (Nat.not_le.mpr hlt), hdec]

/-- Settles O7: the ranges and their number by the matcher's answer to each byte; a byte without a pattern begins no
instruction, so the step takes the decoder's fault. -/
theorem otherFirstBytesAreUnknownOpcode : Obligations.OtherFirstBytesAreUnknownOpcode := by
  unfold Obligations.OtherFirstBytesAreUnknownOpcode
  simp only [matchBits_isSome]
  refine ⟨by decide +kernel, by decide +kernel, fun s b0 hrun hfetch hmatch => ?_⟩
  obtain ⟨hlt, rest, hwin⟩ := window_of_fetch hfetch
  have hdec : decode s.window = .error .unknownOpcode := hwin ▸ decode_unknownOpcode hmatch rest
  exact ⟨_, step_decode_error hrun hlt hdec, takeFault_precise s _⟩

/-! ### The step on what the decoder answers -/

/-- Settles O21: both faults of the decoder are taken by `takeFault`. -/
theorem decodeFailuresAreTaken : Obligations.DecodeFailuresAreTaken := by
  intro s hrun hlt
  exact ⟨fun hdec => ⟨_, step_decode_error hrun hlt hdec, takeFault_precise s _⟩,
    fun hdec => ⟨_, step_decode_error hrun hlt hdec, takeFault_precise s _⟩⟩

/-- Settles O22: the step hands the decoded instruction to `exec`. -/
theorem stepRunsTheDecodedInstruction : Obligations.StepRunsTheDecodedInstruction :=
  fun _ _ hrun hlt hdec => step_decode_ok hrun hlt hdec

/-- Settles O23: the window begins with the bytes of the encoding, so the decoder reads the instruction. -/
theorem stepRunsTheInstructionInTheBuffer : Obligations.StepRunsTheInstructionInTheBuffer := by
  intro s i hrun hwf hfits hbytes
  obtain ⟨hlo, hhi⟩ := instr_len_bounds i
  obtain ⟨hlen, -⟩ := Laws.EncodedLength.all i hwf
  have hwin := window_take (s := s) (bs := encode i) (by rw [hlen]; exact hbytes) (by rw [hlen]; exact hhi)
    (by rw [hlen]; exact hfits)
  rw [hlen] at hwin
  have hlt : s.ip.toNat < s.params.len.val := by unfold State.fits at hfits; omega
  exact step_decode_ok hrun hlt (decode_of_readFrom ⟨hwf, hwin⟩)

end Sys2Proof.Machine
end

section
/-! Lengths and records (spec/30_encoding.md R50, R51, R70, R77): the table of lengths on the numbers of the first two
bytes, and the fields of every record. -/

namespace Sys2Proof.Machine

/-! ### The table of lengths -/

/-- `disp_len` on the number of a mode byte (R56). -/
def dispNumber (m : Nat) : Nat := if m / 64 = 3 then 0 else if m / 64 = 0 ∧ m % 8 = 6 then 2 else m / 64

/-- The length of a class on the numbers of the opcode byte `n` and the mode byte `m` (R70). -/
def classLen (c : OpClass) (n m : Nat) : Nat :=
  match c with
  | .movRmReg | .addRmReg | .subRmReg | .cmpRmReg => 2 + dispNumber m
  | .movImmRm => 2 + dispNumber m + (n % 2 + 1)
  | .arithImmRm => 2 + dispNumber m + (n % 2 + 1 - n / 2 % 2)
  | .movImmReg => 1 + (n / 8 % 2 + 1)
  | .addImmAcc | .subImmAcc | .cmpImmAcc => 1 + (n % 2 + 1)
  | .movMemAcc | .movAccMem => 3
  | .jcc _ => 2

theorem dispLen_modeByte (b1 : Byte) : dispLen (modOf b1) (rmOf b1) = dispNumber b1.toNat := by
  revert b1; decide +kernel

theorem immLen_opcode (b0 : Byte) :
    immLen false (widthOf (b0.getLsbD 0)) = b0.toNat % 2 + 1 ∧
    immLen false (widthOf (b0.getLsbD 3)) = b0.toNat / 8 % 2 + 1 ∧
    immLen (b0.getLsbD 1) (widthOf (b0.getLsbD 0)) = b0.toNat % 2 + 1 - b0.toNat / 2 % 2 := by
  revert b0; decide +kernel

theorem decodeRmReg_len {mk : Bool → Width → Rm → Reg → Instr}
    (hlen : ∀ d w rm reg, (mk d w rm reg).len = 2 + rm.dispBytes)
    {b0 b1 : Byte} {tl : List Byte} {i : Instr} (h : decodeRmReg mk (b0 :: b1 :: tl) = .ok i) :
    i.len = 2 + dispNumber b1.toNat := by
  rw [decodeRmReg_cons] at h
  obtain ⟨-, h⟩ := need_cases h
  cases h
  rw [hlen, dispBytes_rmOperand, dispLen_modeByte]

theorem decodeClass_len {c : OpClass} {b0 b1 : Byte} {tl : List Byte} {i : Instr}
    (h : decodeClass c (b0 :: b1 :: tl) = .ok i) : i.len = classLen c b0.toNat b1.toNat := by
  obtain ⟨hk0, hk3, hks⟩ := immLen_opcode b0
  cases c
  case movRmReg | addRmReg | subRmReg | cmpRmReg => exact decodeRmReg_len (fun _ _ _ _ => rfl) h
  case addImmAcc | subImmAcc | cmpImmAcc =>
    obtain ⟨-, h⟩ := need_cases h
    cases h
    exact congrArg (1 + ·) hk0
  case movImmReg =>
    obtain ⟨-, h⟩ := need_cases h
    cases h
    exact congrArg (1 + ·) hk3
  case movMemAcc | movAccMem =>
    obtain ⟨-, h⟩ := need_cases h
    cases h
    rfl
  case jcc j =>
    rw [decodeClass, decodeJcc] at h
    obtain ⟨-, h⟩ := need_cases h
    cases h
    exact jcc_len j _
  case movImmRm =>
    rw [decodeClass, decodeMovImmRm_cons] at h
    split at h
    · cases h
    · obtain ⟨-, h⟩ := need_cases h
      cases h
      rw [Instr.len, dispBytes_rmOperand, dispLen_modeByte, hk0, classLen]
  case arithImmRm =>
    rw [decodeClass] at h
    cases hmk : arithOf (regOf b1) with
    | none => rw [decodeArithImmRm_none _ _ _ hmk] at h; cases h
    | some mk =>
      rw [decodeArithImmRm_some _ _ _ hmk] at h
      obtain ⟨-, h⟩ := need_cases h
      cases h
      obtain ⟨-, rfl⟩ | ⟨-, rfl⟩ | ⟨-, rfl⟩ := arithOf_cases hmk <;>
        rw [Instr.len, dispBytes_rmOperand, dispLen_modeByte, hks, classLen]

/-- A decoded instruction has the length of the class of its first byte. -/
theorem decode_len {b0 b1 : Byte} {tl : List Byte} {i : Instr} (h : decode (b0 :: b1 :: tl) = .ok i) :
    ∃ c, rangeClass b0.toNat = some c ∧ i.len = classLen c b0.toNat b1.toNat := by
  obtain ⟨_, _, c, n, heq, hmatch, h⟩ := decode_cases h
  cases heq
  exact ⟨c, rangeClass_of_matchBits hmatch, decodeClass_len h⟩

/-- The lengths of the register/memory and register forms by mod and rm (R56, R70). -/
theorem dispNumber_cases {m : Nat} (h : m < 256) :
    (m / 64 = 3 ∧ dispNumber m = 0) ∨ (m / 64 = 0 ∧ m % 8 = 6 ∧ dispNumber m = 2) ∨
    (m / 64 = 0 ∧ m % 8 ≠ 6 ∧ dispNumber m = 0) ∨ (m / 64 = 1 ∧ dispNumber m = 1) ∨
    (m / 64 = 2 ∧ dispNumber m = 2) := by
  unfold dispNumber
  split
  · next h3 => exact .inl ⟨h3, rfl⟩
  · split <;> omega

/-- The lengths of the opcode bytes that a row of the table of lengths names (R50, R70). -/
theorem rangeClass_rows {n : Nat} {c : OpClass} (h : rangeClass n = some c) :
    (n / 4 = 0x00 ∨ n / 4 = 0x0A ∨ n / 4 = 0x0E ∨ n / 4 = 0x22 → ∀ m, classLen c n m = 2 + dispNumber m) ∧
    (n / 2 = 0x63 → c = .movImmRm) ∧ (n / 4 = 0x20 → c = .arithImmRm) ∧ (n / 16 = 0x0B → c = .movImmReg) ∧
    (n / 2 = 0x02 ∨ n / 2 = 0x16 ∨ n / 2 = 0x1E → ∀ m, classLen c n m = 1 + (n % 2 + 1)) ∧
    (n / 4 = 0x28 → ∀ m, classLen c n m = 3) ∧
    ((0x70 ≤ n ∧ n ≤ 0x7F) ∨ n / 4 = 0x38 → ∀ m, classLen c n m = 2) := by
  refine ⟨fun hrow => ?_, fun hrow => ?_, fun hrow => ?_, fun hrow => ?_, fun hrow => ?_, fun hrow => ?_,
    fun hrow => ?_⟩
  · obtain hq | hq | hq | hq := hrow <;> simp only [rangeClass, hq, Option.some.injEq] at h <;> subst h <;>
      exact fun _ => rfl
  · have hq : n / 4 = 0x31 := by omega
    have hhalf : ¬ n % 4 < 2 := by omega
    simpa [rangeClass, hq, hhalf] using h.symm
  · simpa [rangeClass, hrow] using h.symm
  · have hq : n / 4 = 0x2C ∨ n / 4 = 0x2D ∨ n / 4 = 0x2E ∨ n / 4 = 0x2F := by omega
    obtain hq | hq | hq | hq := hq <;> simpa [rangeClass, hq] using h.symm
  · have hq : (n / 4 = 0x01 ∨ n / 4 = 0x0B ∨ n / 4 = 0x0F) ∧ n % 4 < 2 := by omega
    obtain ⟨hq | hq | hq, hhalf⟩ := hq <;> simp only [rangeClass, hq, if_pos hhalf, Option.some.injEq] at h <;>
      subst h <;> exact fun _ => rfl
  · simp only [rangeClass, hrow] at h
    split at h <;> cases h <;> exact fun _ => rfl
  · have hq : n / 4 = 0x1C ∨ n / 4 = 0x1D ∨ n / 4 = 0x1E ∨ n / 4 = 0x1F ∨ n / 4 = 0x38 := by omega
    obtain hq | hq | hq | hq | hq := hq <;> simp only [rangeClass, hq] at h <;>
      obtain ⟨j, -, rfl⟩ := Option.map_eq_some_iff.mp h <;> exact fun _ => rfl

/-- Settles O10: each row's opcode bytes are those of its classes, whose lengths `decode_len` gives. -/
theorem lengthsByClass : Obligations.LengthsByClass := by
  intro b0 b1 rest i h mod rm nd w sx
  obtain ⟨c, hclass, hlen⟩ := decode_len h
  obtain ⟨hrr, hmi, har, hmr, hia, hda, hj⟩ := rangeClass_rows hclass
  have hnd : dispNumber b1.toNat = nd := rfl
  have hmode := dispNumber_cases b1.isLt
  refine ⟨fun hrow => ?_, fun hrow => ?_, fun hrow => ?_, fun hrow => ?_, fun hrow => ?_, fun hrow => ?_,
    fun hrow => ?_⟩
  · rw [hlen, hrr hrow]
    omega
  · rw [hlen, hmi hrow, classLen]
    omega
  · rw [hlen, har hrow, classLen]
    omega
  · rw [hlen, hmr hrow, classLen]
    split <;> omega
  · rw [hlen, hia hrow]
    split <;> omega
  · rw [hlen, hda hrow]
  · rw [hlen, hj hrow]

/-! ### The matcher's table and the words of the spec -/

/-- Settles O5: the table's rows are listed, and the 256 bytes are counted against them. -/
theorem matcherTableHasNoOverlap : Obligations.MatcherTableHasNoOverlap :=
  ⟨by decide, by decide, by decide, by decide, rfl, by decide +kernel⟩

/-- Settles O11: the nine words decode by computation. -/
theorem specWordsDecodeAsWritten : Obligations.SpecWordsDecodeAsWritten :=
  ⟨by decide, by decide, by decide, by decide, by decide, by decide, by decide, by decide, by decide⟩

/-! ### The instruction record -/

theorem recordIs_rmReg {i : Instr} {cls : OpClass} {op : Op} {d : Bool} {w : Width} {rm : Rm} {reg : Reg}
    (h : i.record = recordRmReg cls op d w rm reg i.len) :
    RecordIs i cls op (some d) (some w) none (shownPair d rm reg) := by
  rw [RecordIs, h, recordRmReg, rmReg_operands]

theorem recordIs_arithImm {i : Instr} {op : Op} {s : Bool} {w : Width} {rm : Rm} {imm : Imm}
    (h : i.record = recordArithImm op s w rm imm i.len) :
    RecordIs i .arithImmRm op none (some w) (some s) (.pair (shownRm rm) (shownImm imm)) := by
  rw [RecordIs, h, recordArithImm, rm_operand, imm_operand]

theorem recordIs_immAcc {i : Instr} {cls : OpClass} {op : Op} {w : Width} {imm : Imm}
    (h : i.record = recordPlain cls op w (.register (accOf w)) imm.operand i.len) :
    RecordIs i cls op none (some w) none (.pair (shownAcc w) (shownImm imm)) := by
  rw [RecordIs, h, recordPlain, imm_operand]
  cases w <;> rfl

theorem jumpRecordIs_jcc (j : Jcc) (rel : Byte) : JumpRecordIs (Jcc.instr j rel) j rel := by
  rw [JumpRecordIs, RecordIs, jcc_record, recordJump, relOf, signed16_sext16, jcc_len]

/-- Settles O12: class, operation and flags are the record's own; the operands are shown as numbers by `rm_operand`,
`imm_operand` and `signed16_sext16`. -/
theorem recordFieldsByClass : Obligations.RecordFieldsByClass := by
  refine ⟨fun _ _ _ _ => recordIs_rmReg rfl, fun w rm imm => ?_, fun w reg imm => ?_, fun w addr => ?_,
    fun w addr => ?_,
    fun _ _ _ _ => recordIs_rmReg rfl, fun _ _ _ _ => recordIs_arithImm rfl, fun _ _ => recordIs_immAcc rfl,
    fun _ _ _ _ => recordIs_rmReg rfl, fun _ _ _ _ => recordIs_arithImm rfl, fun _ _ => recordIs_immAcc rfl,
    fun _ _ _ _ => recordIs_rmReg rfl, fun _ _ _ _ => recordIs_arithImm rfl, fun _ _ => recordIs_immAcc rfl,
    fun rel => ?_⟩
  · rw [RecordIs, Instr.record, recordPlain, rm_operand, imm_operand]
  · rw [RecordIs, Instr.record, recordPlain, imm_operand]
  · cases w <;> rfl
  · cases w <;> rfl
  · exact ⟨jumpRecordIs_jcc .jo rel, jumpRecordIs_jcc .jno rel, jumpRecordIs_jcc .jb rel, jumpRecordIs_jcc .jnb rel,
      jumpRecordIs_jcc .je rel, jumpRecordIs_jcc .jne rel, jumpRecordIs_jcc .jbe rel, jumpRecordIs_jcc .ja rel,
      jumpRecordIs_jcc .js rel, jumpRecordIs_jcc .jns rel, jumpRecordIs_jcc .jp rel, jumpRecordIs_jcc .jnp rel,
      jumpRecordIs_jcc .jl rel, jumpRecordIs_jcc .jnl rel, jumpRecordIs_jcc .jle rel, jumpRecordIs_jcc .jg rel,
      jumpRecordIs_jcc .loopnz rel, jumpRecordIs_jcc .loopz rel, jumpRecordIs_jcc .loop rel, jumpRecordIs_jcc .jcxz rel⟩

end Sys2Proof.Machine
end

section
/-! Steps and their frame (spec/10_state.md R24, R25, R31, R34; spec/40_execution_cycle.md R85-R95;
spec/60_exceptions.md R141-R150): what every instruction and every step keeps, reads and records. -/

namespace Sys2Proof.Machine

/-! ### Every instruction answers a next state -/

theorem exec_next (i : Instr) (s : State) : ∃ t, exec i s = .next t := by
  rw [exec_eq_perform]
  cases hmode : s.params.execMode with
  | decodeOnly => exact ⟨_, perform_decodeOnly hmode i _⟩
  | execute =>
    cases phaseOne i s with
    | error k => exact ⟨_, perform_error hmode i k⟩
    | ok e => exact ⟨_, perform_ok hmode i e⟩

/-- Settles O32: listed, faulting and committed instructions all answer a next state. -/
theorem everyInstructionAnswersANextState : Obligations.EveryInstructionAnswersANextState := exec_next

/-- Settles O19: in RUN a step halts, takes a decode fault or runs an instruction, which answers a next state. -/
theorem stepsAreEnabledExactlyInRun : Obligations.StepsAreEnabledExactlyInRun := by
  intro s
  refine ⟨fun hrun => ?_, fun hhalt => by simp only [step, hhalt], fun hfault => by simp only [step, hfault]⟩
  by_cases hend : s.params.len.val ≤ s.ip.toNat
  · exact ⟨_, step_bufferEnd hrun hend⟩
  · have hlt := Nat.lt_of_not_le hend
    cases hdec : decode s.window with
    | error k => exact ⟨_, step_decode_error hrun hlt hdec⟩
    | ok i => rw [step_decode_ok hrun hlt hdec]; exact exec_next i s

/-! ### STATUS -/

/-- Settles O26: a step halts, faults, or runs an instruction, which keeps STATUS or takes a fault. -/
theorem statusTransitions : Obligations.StatusTransitions := by
  intro s t h
  obtain ⟨hrun, hcase⟩ := step_cases h
  refine ⟨hrun, ?_⟩
  obtain ⟨hend, rfl⟩ | ⟨-, k, -, rfl⟩ | ⟨-, i, -, hexec⟩ := hcase
  · exact .inr (.inr ⟨takeHalt_status s, hend, takeHalt_ip s⟩)
  · exact .inr (.inl (takeFault_status s _))
  · obtain hsame | ⟨k, hstatus, -⟩ := exec_sameStatus_or_faultTaken hexec
    · exact .inl (hsame.trans hrun)
    · exact .inr (.inl hstatus)

/-- An instruction that starts in RUN and faults took a fault of phase one, in EXECUTE (R90, R146). -/
theorem exec_fault_cases {i : Instr} {s t : State} (h : exec i s = .next t) (hrun : s.status = .run)
    (hfault : t.status = .fault) :
    s.params.execMode = .execute ∧ ∃ k, phaseOne i s = .error k ∧ t.faultRec.kind = k := by
  obtain ⟨-, rfl⟩ | ⟨hmode, k, hk, rfl⟩ | ⟨-, e, -, rfl⟩ := exec_cases h
  · rw [list_status, hrun] at hfault
    cases hfault
  · exact ⟨hmode, k, hk, rfl⟩
  · rw [commit_status, hrun] at hfault
    cases hfault

/-- Settles O51: the faults of phase one are those of `phaseOne_error`. -/
theorem executeFaultsByInstruction : Obligations.ExecuteFaultsByInstruction := by
  intro i s t h hrun hfault
  obtain ⟨hmode, k, hk, hkind⟩ := exec_fault_cases h hrun hfault
  refine ⟨hmode, ?_⟩
  rw [hkind]
  obtain rfl | rfl | ⟨rfl, hjne, hz⟩ := phaseOne_error hk
  · exact ⟨nofun, fun _ => .inl rfl⟩
  · exact ⟨nofun, fun _ => .inr rfl⟩
  · exact ⟨fun _ => ⟨hjne, hz⟩, fun hnot => by rw [hjne] at hnot; cases hnot⟩

/-- Settles O27: the decoder has two kinds of failure, phase one three others. -/
theorem twoFaultKindsAreNeverRaised : Obligations.TwoFaultKindsAreNeverRaised := by
  intro s t h hfault
  obtain ⟨hrun, ⟨-, rfl⟩ | ⟨-, k, -, rfl⟩ | ⟨-, i, -, hexec⟩⟩ := step_cases h
  · rw [takeHalt_status] at hfault
    cases hfault
  · rw [takeFault_faultRec]
    cases k <;> exact ⟨nofun, nofun⟩
  · obtain ⟨-, k, hk, hkind⟩ := exec_fault_cases hexec hrun hfault
    rw [hkind]
    obtain rfl | rfl | ⟨rfl, -⟩ := phaseOne_error hk <;> exact ⟨nofun, nofun⟩

/-! ### The frame of an instruction -/

/-- An instruction leaves the registers, or writes the one that `writtenReg` names (R16). -/
theorem exec_regs {i : Instr} {s t : State} (h : exec i s = .next t) :
    t.regs = s.regs ∨ ∃ r v, writtenReg i = some r ∧ t.regs = (s.set r v).regs := by
  obtain ⟨-, rfl⟩ | ⟨-, k, -, rfl⟩ | ⟨-, e, he, rfl⟩ := exec_cases h
  · exact .inl (list_regs s i)
  · exact .inl (takeFault_regs s k)
  · obtain ⟨hreg, -, -⟩ := phaseOne_ok he
    rw [commit_regs, apply_regs, ← hreg]
    cases hw : e.reg with
    | none => exact .inl rfl
    | some x => exact .inr ⟨x.1, x.2, rfl, rfl⟩

/-- An instruction leaves F, or is ADD, SUB or CMP and writes it by `set_flags_from_result` (R24). -/
theorem exec_flags {i : Instr} {s t : State} (h : exec i s = .next t) :
    t.flags = s.flags ∨ (writesFlags i = true ∧ ∃ res, t.flags = flagsFrom s.flags res) := by
  obtain ⟨-, rfl⟩ | ⟨-, k, -, rfl⟩ | ⟨-, e, he, rfl⟩ := exec_cases h
  · exact .inl (list_flags s i)
  · exact .inl (takeFault_flags s k)
  · obtain ⟨-, hflag, -⟩ := phaseOne_ok he
    rw [commit_flags, apply_flags, ← hflag]
    cases hw : e.flagInput with
    | none => exact .inl rfl
    | some res => exact .inr ⟨rfl, res, rfl⟩

theorem exec_flags_of_not_writesFlags {i : Instr} {s t : State} (h : exec i s = .next t)
    (hw : writesFlags i = false) : t.flags = s.flags := by
  refine (exec_flags h).resolve_right fun ⟨hw', _⟩ => ?_
  rw [hw] at hw'
  cases hw'

theorem exec_sameUnwrittenFlags {i : Instr} {s t : State} (h : exec i s = .next t) : s.SameUnwrittenFlags t := by
  unfold State.SameUnwrittenFlags
  obtain hsame | ⟨-, res, hres⟩ := exec_flags h
  · rw [hsame]
  · rw [hres, flagsFrom_unwritten]

theorem exec_control {i : Instr} {s t : State} (h : exec i s = .next t) : s.SameControl t ∨ ∃ k, s.FaultTaken t k := by
  obtain ⟨-, rfl⟩ | ⟨-, k, -, rfl⟩ | ⟨-, e, -, rfl⟩ := exec_cases h
  · exact .inl ⟨list_status s i, list_faultRec s i, sameProgram_of_params (list_params s i)⟩
  · exact .inr ⟨k, takeFault_precise s k⟩
  · exact .inl ⟨commit_status s i e, commit_faultRec s i e, sameProgram_of_params (commit_params s i e)⟩

/-- Settles O34: one lemma for each part of the state. -/
theorem frameOfEveryInstruction : Obligations.FrameOfEveryInstruction := by
  intro i s t h
  refine ⟨sameProgram_of_params (exec_params h), fun r hr q hq => ?_, fun hnone => ?_, exec_sameUnwrittenFlags h,
    exec_flags_of_not_writesFlags h, exec_control h⟩
  · obtain hsame | ⟨r', v, hr', hset⟩ := exec_regs h
    · exact get_congr hsame q
    · obtain rfl := Option.some.inj (hr.symm.trans hr')
      exact (get_congr hset q).trans (get_set_disjoint s r q v hq)
  · refine get_congr ((exec_regs h).resolve_right fun ⟨r, v, hr, _⟩ => ?_)
    rw [hnone] at hr
    cases hr

/-- Settles O35: an instruction leaves F or writes it by `set_flags_from_result`, which writes bits 1, 2 and 3. -/
theorem onlyArithmeticWritesFlags : Obligations.OnlyArithmeticWritesFlags := by
  intro i s t h
  refine ⟨exec_flags_of_not_writesFlags h, fun k hz hs hp => ?_⟩
  obtain hsame | ⟨-, res, hres⟩ := exec_flags h
  · rw [hsame]
  · rw [hres, flagsFrom_bit]
    exact (if_neg hp).trans ((if_neg hs).trans (if_neg hz))

/-! ### The sequence -/

/-- Settles O24: the decoder saw all its bytes below L; a listed or committed instruction advances unless it jumps. -/
theorem onlyJneLeavesTheSequence : Obligations.OnlyJneLeavesTheSequence := by
  intro s t i hrun hlt hdec h
  have hfits := window_fits hlt hdec
  have hlen := s.params.len.isLt
  refine ⟨hfits, by unfold State.fits at hfits; omega, fun hstatus hjne => ?_⟩
  rw [step_decode_ok hrun hlt hdec] at h
  obtain ⟨-, rfl⟩ | ⟨-, k, -, rfl⟩ | ⟨-, e, he, rfl⟩ := exec_cases h
  · obtain ⟨hip, -⟩ := list_advanced s i
    exact hip hfits
  · rw [takeFault_status] at hstatus
    cases hstatus
  · obtain ⟨-, -, hjump⟩ := phaseOne_ok he
    obtain ⟨hip, -⟩ := commit_advanced s i e (hjump hjne)
    exact hip hfits

/-! ### The trace -/

/-- An instruction emits one record and keeps STATUS, or takes a fault and emits none (R94, R95). -/
theorem exec_trace {i : Instr} {s t : State} (h : exec i s = .next t) :
    (t.status = s.status ∧ s.Traced t i) ∨ ∃ k, s.FaultTaken t k := by
  obtain ⟨-, rfl⟩ | ⟨-, k, -, rfl⟩ | ⟨-, e, -, rfl⟩ := exec_cases h
  · exact .inl ⟨list_status s i, _, list_trace s i, rfl, rfl⟩
  · exact .inr ⟨k, takeFault_precise s k⟩
  · exact .inl ⟨commit_status s i e, _, commit_trace s i e, rfl, rfl⟩

/-- Settles O29: only an instruction that is listed or committed emits a record, and it keeps RUN. -/
theorem oneTraceRecordPerCommit : Obligations.OneTraceRecordPerCommit := by
  intro s t h
  obtain ⟨hrun, ⟨-, rfl⟩ | ⟨-, k, -, rfl⟩ | ⟨-, i, hdec, hexec⟩⟩ := step_cases h
  · exact .inr ⟨nofun, takeHalt_trace s⟩
  · exact .inr ⟨nofun, takeFault_trace s _⟩
  · obtain ⟨hstatus, htraced⟩ | ⟨k, hstatus, -, -, -, -, -, htrace⟩ := exec_trace hexec
    · exact .inl ⟨hstatus.trans hrun, i, hdec, htraced⟩
    · exact .inr ⟨by rw [hstatus]; nofun, htrace⟩

/-- The resulting values of committed effects, by what the instruction writes (R95). -/
theorem resultValues_of_phaseOne {i : Instr} {s : State} {e : Effects} (he : phaseOne i s = .ok e) :
    resultValues s (s.apply i.len e) e =
      { dst := (writtenReg i).map (fun q => { reg := q, before := s.get q, after := (s.commit i e).get q })
        flags := if writesFlags i then some { before := s.flags, after := (s.commit i e).flags } else none
        ipAfter := (s.commit i e).ip } := by
  obtain ⟨hreg, hflag, -⟩ := phaseOne_ok he
  rw [← hreg, ← hflag, Option.map_map]
  cases hf : e.flagInput <;> simp only [resultValues, hf] <;> rfl

/-- Settles O30: the record of a listing has no values; that of a commit has those of `resultValues_of_phaseOne`. -/
theorem traceHoldsTheResultingValues : Obligations.TraceHoldsTheResultingValues := by
  intro i s t h htrace
  obtain ⟨hmode, rfl⟩ | ⟨-, k, -, rfl⟩ | ⟨hmode, e, he, rfl⟩ := exec_cases h
  · exact ⟨_, list_trace s i, rfl, rfl, by rw [hmode]; rfl⟩
  · exact absurd (takeFault_trace s k) htrace
  · exact ⟨_, commit_trace s i e, rfl, rfl, by rw [hmode]; exact congrArg some (resultValues_of_phaseOne he)⟩

/-! ### The reported address (R84) -/

/-- Effects come out of phase one only where the operand that can name memory does not (R92). -/
theorem memoryOperand_of_phaseOne_ok {i : Instr} {s : State} {e : Effects} (he : phaseOne i s = .ok e) {rm : Rm}
    (hrm : memoryOperand i = some rm) : namesMemory rm = false := by
  have hpair : ∀ {d rm reg x}, s.operands (dstOf d rm reg) (.rm (srcOf d rm reg)) = .ok x → namesMemory rm = false := by
    intro d rm reg x ho
    by_contra hmem
    rw [operands_rmReg_namesMemory s d reg (Bool.not_eq_false _ ▸ hmem)] at ho
    cases ho
  have himm : ∀ {rm imm x}, s.operands rm (.imm imm) = .ok x → namesMemory rm = false := by
    intro rm imm x ho
    rw [(operands_cases ho).1]
    rfl
  cases i <;> cases hrm
  case movRmReg => obtain ⟨r, v, ho, -⟩ := movEffects_cases he; exact hpair ho
  case movImmRm => obtain ⟨r, v, ho, -⟩ := movEffects_cases he; exact himm ho
  case movMemAcc => simp only [phaseOne] at he; obtain ⟨r, v, ho, -⟩ := movEffects_cases he; exact hpair (d := true) ho
  case movAccMem => simp only [phaseOne] at he; obtain ⟨r, v, ho, -⟩ := movEffects_cases he; exact hpair (d := false) ho
  case addRmReg | subRmReg => obtain ⟨r, v, ho, -⟩ := aluEffects_cases he; exact hpair ho
  case addImmRm | subImmRm => obtain ⟨r, v, ho, -⟩ := aluEffects_cases he; exact himm ho
  case cmpRmReg => obtain ⟨r, v, ho, -⟩ := cmpEffects_cases he; exact hpair ho
  case cmpImmRm => obtain ⟨r, v, ho, -⟩ := cmpEffects_cases he; exact himm ho

theorem rmAddress_eq_none {rm : Rm} (h : namesMemory rm = false) (s : State) : s.rmAddress rm = none := by
  cases rm with
  | reg r => rfl
  | mem eac disp => cases h
  | direct addr => cases h

/-- Settles O31: a listing reports the address of the operand that can name memory; where an instruction commits, that
operand is a register or there is none. -/
theorem reportedEffectiveAddresses : Obligations.ReportedEffectiveAddresses := by
  refine ⟨fun i s hmode => ⟨s.list i, traceRecord s i.record none, exec_decodeOnly hmode i, list_trace s i, ?_⟩,
    fun i s t r hmode h htrace => ?_⟩
  · have hea : (traceRecord s i.record none).ea = (memoryOperand i).bind s.rmAddress := reportedAddress_record s i
    rw [hea]
    refine ⟨fun eac disp hm => ?_, fun addr hm => ?_, fun reg hm => ?_, fun hm => ?_⟩ <;> rw [hm]
    · exact ⟨_, rfl, effectiveAddress_toNat s eac disp⟩
    all_goals rfl
  · obtain ⟨hlist, -⟩ | ⟨-, k, -, rfl⟩ | ⟨-, e, he, rfl⟩ := exec_cases h
    · rw [hmode] at hlist
      cases hlist
    · rw [takeFault_trace] at htrace
      simp at htrace
    · rw [commit_trace] at htrace
      obtain rfl := List.singleton_inj.mp (List.append_cancel_left htrace)
      refine (reportedAddress_record s i).trans ?_
      cases hm : memoryOperand i with
      | none => rfl
      | some rm => exact rmAddress_eq_none (memoryOperand_of_phaseOne_ok he hm) s

/-! ### What an instruction and a step do not read -/

/-- Phase one reads no flag but Z, and Z for `jne` alone (R27). -/
theorem phaseOne_withFlags {i : Instr} {s : State} {f : Byte}
    (hz : isJne i = true → f.getLsbD (flagBit .z) = s.getFlag .z) :
    phaseOne i { s with flags := f } = phaseOne i s := by
  cases i
  case jne rel =>
    have hflag : State.getFlag { s with flags := f } .z = s.getFlag .z := hz rfl
    simp only [phaseOne, hflag]
    rfl
  all_goals rfl

theorem commit_withFlags (s : State) (f : Byte) (i : Instr) (e : Effects) :
    (State.commit { s with flags := f } i e).regs = (s.commit i e).regs ∧
    (State.commit { s with flags := f } i e).ip = (s.commit i e).ip := by
  rw [commit_regs, commit_regs, apply_regs, apply_regs, commit_ip, commit_ip, apply_ip, apply_ip]
  exact ⟨by cases e.reg <;> rfl, by cases e.jump <;> rfl⟩

/-- Settles O37: phase one is the same, and phase two writes the same registers and `ip`. -/
theorem flagsAreReadOnlyByJne : Obligations.FlagsAreReadOnlyByJne := by
  intro i s t f h hz
  have hone := phaseOne_withFlags hz
  obtain ⟨hmode, rfl⟩ | ⟨hmode, k, hk, rfl⟩ | ⟨hmode, e, he, rfl⟩ := exec_cases h
  · exact ⟨_, exec_decodeOnly (s := { s with flags := f }) hmode i, rfl, rfl, rfl, rfl, rfl⟩
  · exact ⟨_, exec_error hmode (hone.trans hk), rfl, rfl, rfl, rfl, rfl⟩
  · obtain ⟨hregs, hip⟩ := commit_withFlags s f i e
    refine ⟨_, exec_ok hmode (hone.trans he), hregs, hip, ?_⟩
    simp only [commit_status, commit_faultRec, commit_params, and_self]

theorem phaseOne_withFaultRec (i : Instr) (s : State) (f : FaultRecord) :
    phaseOne i { s with faultRec := f } = phaseOne i s := by cases i <;> rfl

theorem commit_withFaultRec (s : State) (f : FaultRecord) (i : Instr) (e : Effects) :
    State.commit { s with faultRec := f } i e = { s.commit i e with faultRec := f } := by
  obtain ⟨_ | ⟨r, v⟩, _ | res, _ | rel⟩ := e <;> rfl

/-- An instruction does not read the FAULT record, and writes it only by taking a fault. -/
theorem exec_withFaultRec {i : Instr} {s t : State} (f : FaultRecord) (h : exec i s = .next t) :
    (t.status = s.status ∧ exec i { s with faultRec := f } = .next { t with faultRec := f }) ∨
    (t.status = .fault ∧ exec i { s with faultRec := f } = .next t) := by
  have hone := phaseOne_withFaultRec i s f
  obtain ⟨hmode, rfl⟩ | ⟨hmode, k, hk, rfl⟩ | ⟨hmode, e, he, rfl⟩ := exec_cases h
  · exact .inl ⟨rfl, exec_decodeOnly (s := { s with faultRec := f }) hmode i⟩
  · exact .inr ⟨rfl, exec_error hmode (hone.trans hk)⟩
  · exact .inl ⟨commit_status s i e, commit_withFaultRec s f i e ▸ exec_ok hmode (hone.trans he)⟩

/-- Settles O38: the halt and the decode fault by their writes, an instruction by `exec_withFaultRec`. -/
theorem faultRecordIsNeverRead : Obligations.FaultRecordIsNeverRead := by
  intro s t f h
  obtain ⟨hrun, ⟨hend, rfl⟩ | ⟨hlt, k, hdec, rfl⟩ | ⟨hlt, i, hdec, hexec⟩⟩ := step_cases h
  · exact ⟨_, step_bufferEnd hrun hend, rfl, nofun⟩
  · exact ⟨_, step_decode_error hrun hlt hdec, rfl, fun _ => rfl⟩
  · rw [step_decode_ok (s := { s with faultRec := f }) hrun hlt hdec]
    obtain ⟨hstatus, hnext⟩ | ⟨-, hnext⟩ := exec_withFaultRec f hexec
    · refine ⟨_, hnext, rfl, fun hfault => ?_⟩
      rw [hstatus, hrun] at hfault
      cases hfault
    · exact ⟨_, hnext, rfl, fun _ => rfl⟩

end Sys2Proof.Machine
end

section
/-! The invariant (spec/10_state.md R25, R32, R34; spec/70_reset_and_hazards.md R157, R160): every step keeps it, every
reset leads to it, and so it holds of every state of a run. -/

namespace Sys2Proof.Machine

theorem step_sameUnwrittenFlags {s t : State} (h : step s = .next t) : s.SameUnwrittenFlags t := by
  obtain ⟨-, ⟨-, rfl⟩ | ⟨-, k, -, rfl⟩ | ⟨-, i, -, hexec⟩⟩ := step_cases h
  · rfl
  · rfl
  · exact exec_sameUnwrittenFlags hexec

/-- A step that faults stands inside the buffer: beyond it a step halts (R87). -/
theorem step_fault_inside {s t : State} (h : step s = .next t) (hfault : t.status = .fault) :
    s.ip.toNat < s.params.len.val := by
  obtain ⟨-, ⟨-, rfl⟩ | ⟨hlt, -⟩ | ⟨hlt, -⟩⟩ := step_cases h
  · cases hfault
  · exact hlt
  · exact hlt

/-- A record is an old one, or of the instruction that the step decoded inside the buffer (R95). -/
theorem step_trace_mem {s t : State} (h : step s = .next t) {r : TraceRecord} (hr : r ∈ t.trace) :
    r ∈ s.trace ∨
    ∃ i, decode s.window = .ok i ∧ s.ip.toNat < s.params.len.val ∧ r.atIp = s.ip ∧ r.instr = i.record := by
  obtain ⟨-, ⟨-, rfl⟩ | ⟨-, k, -, rfl⟩ | ⟨hlt, i, hdec, hexec⟩⟩ := step_cases h
  · exact .inl hr
  · exact .inl hr
  · obtain ⟨-, r', htrace, hat, hrec⟩ | ⟨k, -, -, -, -, -, -, htrace⟩ := exec_trace hexec <;> rw [htrace] at hr
    · obtain hold | hnew := List.mem_append.mp hr
      · exact .inl hold
      · obtain rfl := List.mem_singleton.mp hnew
        exact .inr ⟨i, hdec, hlt, hat, hrec⟩
    · exact .inl hr

/-- Settles O53: each part of the invariant by what a step keeps, or by what a halt, a fault or a commit leaves. -/
theorem everyStepKeepsTheInvariant : Obligations.EveryStepKeepsTheInvariant := by
  intro s t hinv h
  have hparams := step_params h
  obtain ⟨-, hstatus⟩ := statusTransitions s t h
  refine ⟨(step_sameUnwrittenFlags h).trans hinv.flags, hparams ▸ hinv.bufWf, hparams ▸ hinv.bufInside,
    fun hhalt => ?_, fun hfault => ?_, fun r hr => ?_⟩
  · obtain hrun | hfault | ⟨-, hend, hip⟩ := hstatus
    · rw [hrun] at hhalt; cases hhalt
    · rw [hfault] at hhalt; cases hhalt
    · rw [hparams, hip]; exact hend
  · obtain ⟨-, k, -, hrec, -, -, hip, -⟩ := faultsArePrecise s t h hfault
    rw [hparams, hip, hrec]
    exact ⟨rfl, step_fault_inside h hfault, hrec ▸ twoFaultKindsAreNeverRaised s t h hfault⟩
  · rw [hparams]
    obtain hold | ⟨i, hdec, hlt, hat, hrec⟩ := step_trace_mem h hr
    · exact hinv.traced r hold
    · obtain ⟨hlo, hhi⟩ := instr_len_bounds i
      rw [hrec, record_len, hat]
      exact ⟨hlo, hhi, window_fits hlt hdec⟩

/-- Settles O54: every register, F and the buffer are empty, and no record was emitted. -/
theorem resetMeetsTheInvariant : Obligations.ResetMeetsTheInvariant :=
  { flags := by decide
    bufWf := reset_buf_wf
    bufInside := fun _ h => absurd h List.not_mem_nil
    halted := fun h => absurd h (by decide)
    faulted := fun h => absurd h (by decide)
    traced := fun _ h => absurd h List.not_mem_nil }

/-- What an accepted reset leaves: the reset values and the supplied buffer (R157). -/
theorem resetRun_next {s t : State} {bytes : List Byte} {em : ExecMode} {bf : ByteFlagsMode}
    (h : resetRun s bytes em bf = .next t) :
    t.status = .run ∧ t.flags = 0 ∧ t.trace = [] ∧ t.params.len.val = bytes.length ∧
    t.params.buf = Memory.place [] 0 bytes := by
  unfold resetRun at h
  split at h
  · injection h with h
    rw [← h]
    exact ⟨rfl, rfl, rfl, rfl, rfl⟩
  · cases h

/-- Settles O55: the placed buffer is canonical and inside its length; the rest is as at reset. -/
theorem suppliedResetMeetsTheInvariant : Obligations.SuppliedResetMeetsTheInvariant := by
  intro s t bytes em bf h
  obtain ⟨hrun, hflags, htrace, hlen, hbuf⟩ := resetRun_next h
  have hinside := place_inside bytes [] 0 bytes.length (by simp) (Nat.zero_add _).le
  rw [← hbuf, ← hlen] at hinside
  have hwf : Memory.wf t.params.buf := hbuf ▸ place_wf bytes [] reset_buf_wf 0
  exact
    { flags := by rw [hflags]; decide
      bufWf := hwf
      bufInside := hinside
      halted := fun h => by rw [hrun] at h; cases h
      faulted := fun h => by rw [hrun] at h; cases h
      traced := fun r h => by rw [htrace] at h; cases h }

/-- Settles O18: reading a placed buffer gives the placed bytes, and nothing beyond them. -/
theorem resetSuppliesTheBuffer : Obligations.ResetSuppliesTheBuffer := by
  intro s bytes em bf
  refine ⟨fun hlen => ⟨_, dif_pos hlen, get_reset, rfl, rfl, rfl, rfl, rfl, rfl, rfl, fun p => ?_⟩,
    fun hlen => dif_neg (Nat.not_le.mpr hlen)⟩
  unfold State.fetch
  split
  · next hp =>
    have hread := read_place bytes [] reset_buf_wf 0 p
    rw [dif_pos ⟨Nat.zero_le p, by simpa using hp⟩] at hread
    exact (congrArg some hread).trans (List.getElem?_eq_getElem hp).symm
  · next hp => exact (List.getElem?_eq_none (Nat.not_lt.mp hp)).symm

theorem run_succ_of_step {s s' : State} (h : step s = .next s') (n : Nat) : core.run (n + 1) s = core.run n s' := by
  have hstep : core.step s = .next s' := h
  simp only [Host.Core.run, hstep]

theorem run_succ_cases {s t : State} {n : Nat} (h : core.run (n + 1) s = .next t) :
    ∃ s', step s = .next s' ∧ core.run n s' = .next t := by
  cases hstep : core.step s with
  | next s' => exact ⟨s', hstep, (run_succ_of_step hstep n).symm.trans h⟩
  | fault r => simp only [Host.Core.run, hstep] at h; cases h
  | refused r => simp only [Host.Core.run, hstep] at h; cases h

/-- The invariant holds of every state of a run that begins with it. -/
theorem run_inv {s t : State} {n : Nat} (hinv : s.Inv) (h : core.run n s = .next t) : t.Inv := by
  induction n generalizing s with
  | zero => cases h; exact hinv
  | succ n ih =>
    obtain ⟨s', hstep, hrest⟩ := run_succ_cases h
    exact ih (everyStepKeepsTheInvariant s s' hinv hstep) hrest

/-- A bit of F that the mask of the unwritten flags covers is 0 where the masked F is 0. -/
theorem getLsbD_of_unwritten {F : Byte} (h : F &&& unwrittenFlags = 0) {k : Nat}
    (hk : unwrittenFlags.getLsbD k = true) : F.getLsbD k = false := by
  have hbit := congrArg (BitVec.getLsbD · k) h
  simp only [BitVec.getLsbD_and, hk, Bool.and_true] at hbit
  exact hbit.trans BitVec.getLsbD_zero

/-- Settles O36: the reset meets the invariant, every step keeps it, and it says that the unwritten flags are 0. -/
theorem carryAndOverflowStayZero : Obligations.CarryAndOverflowStayZero := by
  intro s₀ s t bytes em bf n hreset hrun
  have hflags := (run_inv (suppliedResetMeetsTheInvariant s₀ s bytes em bf hreset) hrun).flags
  refine ⟨getLsbD_of_unwritten hflags rfl, getLsbD_of_unwritten hflags rfl, fun k hk => ?_⟩
  by_cases hk8 : k < 8
  · have hmask : unwrittenFlags.getLsbD k = true := by interval_cases k <;> rfl
    exact getLsbD_of_unwritten hflags hmask
  · exact BitVec.getLsbD_of_ge _ _ (Nat.not_lt.mp hk8)

end Sys2Proof.Machine
end

section
/-! Completion in EXECUTE (spec/41_mov.md, 42_arithmetic.md, 43_control_transfer.md): what MOV, ADD, SUB and CMP with a
register leave, and a taken `jne`. -/

namespace Sys2Proof.Machine

/-! ### Operands that are there, and the effects they give -/

/-- A register form takes the reg field's register as destination when `d = 1` and as source when `d = 0` (R61). -/
theorem operands_regs (s : State) (d : Bool) (x y : Reg) :
    s.operands (dstOf d (.reg x) y) (.rm (srcOf d (.reg x) y)) =
      .ok (if d then y else x, s.get (if d then x else y)) := by
  cases d <;> rfl

theorem operands_imm (s : State) (r : Reg) {imm : Imm} (h : imm ≠ .absent) :
    ∃ v, s.operands (.reg r) (.imm imm) = .ok (r, v) ∧ v.toNat = immNumber imm := by
  obtain ⟨v, hv, hnum⟩ := sourceValue_imm s h
  exact ⟨v, by rw [operands_reg, hv], hnum⟩

section
variable {s : State} {dst : Rm} {src : Source} {r : Reg} {v : Word} (h : s.operands dst src = .ok (r, v))
include h

theorem movEffects_of_operands : s.movEffects dst src = .ok { reg := some (r, v) } := by
  simp only [State.movEffects, h]

theorem aluEffects_of_operands (op : AluOp) (w : Width) :
    s.aluEffects op w dst src = .ok
      { reg := some (r, aluResult op w (s.get r) v)
        flagInput := some (flagInput s.params.byteFlags op w (s.get r) v) } := by
  simp only [State.aluEffects, h]

theorem cmpEffects_of_operands (w : Width) :
    s.cmpEffects w dst src = .ok { flagInput := some (flagInput s.params.byteFlags .sub w (s.get r) v) } := by
  simp only [State.cmpEffects, h]

end

/-! ### What a well-formed term says of its operands -/

theorem width_of_fits {w : Width} {r : Reg} (h : (Rm.reg r).fits w = true) : r.width = w := of_decide_eq_true h

theorem widths_of_rmReg {w : Width} {x y : Reg} (h : ((Rm.reg x).fits w && decide (y.width = w)) = true) (d : Bool) :
    (if d then y else x).width = w := by
  rw [Bool.and_eq_true] at h
  cases d
  · exact width_of_fits h.1
  · exact of_decide_eq_true h.2

/-- Only `s = 1, w = 0` has no immediate byte (R62). -/
theorem imm_present {w : Width} {imm : Imm} (h : imm.fits false w = true) : imm ≠ .absent := by
  rintro rfl
  cases w <;> cases h

theorem accOf_width (w : Width) : (accOf w).width = w := by cases w <;> rfl

/-! ### What committed effects leave -/

/-- `get` of the name just set, at its width (R19, R20). -/
theorem get_set_toNat (s : State) (r : Reg) (v : Word) : ((s.set r v).get r).toNat = v.toNat % modulus r.width := by
  cases hr : r.width with
  | byte => exact get_set_byte_toNat s v hr
  | word => rw [get_set_word s v hr]; exact (Nat.mod_eq_of_lt v.isLt).symm

section
variable {s : State} {i : Instr} {e : Effects} {r : Reg} {v : Word}

theorem commit_get (h : e.reg = some (r, v)) (q : Reg) : (s.commit i e).get q = (s.set r v).get q :=
  get_congr (by rw [commit_regs, apply_regs, h, writeReg_some]) q

theorem commit_sameRegsBut (h : e.reg = some (r, v)) : s.SameRegsBut (s.commit i e) r := fun q hq =>
  (commit_get h q).trans (get_set_disjoint s r q v hq)

theorem commit_sameRegs (h : e.reg = none) : s.SameRegs (s.commit i e) :=
  get_congr (by rw [commit_regs, apply_regs, h, writeReg_none])

theorem commit_get_written (h : e.reg = some (r, v)) : ((s.commit i e).get r).toNat = v.toNat % modulus r.width := by
  rw [commit_get h, get_set_toNat]

theorem commit_flags_of_some {res : Int} (h : e.flagInput = some res) :
    (s.commit i e).flags = flagsFrom s.flags res := by
  rw [commit_flags, apply_flags, h, writeFlags_some, setFlagsFromResult_flags]

theorem commit_flags_of_none (h : e.flagInput = none) : (s.commit i e).flags = s.flags := by
  rw [commit_flags, apply_flags, h, writeFlags_none]

theorem commit_sameUnwrittenFlags {res : Int} (h : e.flagInput = some res) : s.SameUnwrittenFlags (s.commit i e) := by
  rw [State.SameUnwrittenFlags, commit_flags_of_some h, flagsFrom_unwritten]

end

/-! ### MOV, ADD, SUB and CMP complete where their operands are there -/

section
variable {s : State} {i : Instr} {dst : Rm} {src : Source} {w : Width} {r : Reg} {v : Word}
  (hmode : s.params.execMode = .execute) (hops : s.operands dst src = .ok (r, v))
include hmode hops

theorem exec_moveDone (hone : phaseOne i s = s.movEffects dst src) (hr : r.width = w) :
    ∃ t, exec i s = .next t ∧ s.MoveDone t i w r v.toNat := by
  refine ⟨_, exec_ok hmode (hone.trans (movEffects_of_operands hops)), ?_, commit_sameRegsBut rfl,
    commit_flags_of_none rfl, commit_advanced s i _ rfl⟩
  rw [commit_get_written rfl, hr]

theorem exec_arithDone {op : AluOp} (hone : phaseOne i s = s.aluEffects op w dst src) (hr : r.width = w) :
    ∃ t, exec i s = .next t ∧ s.ArithDone t i w r (aluNumber op (s.get r) v) := by
  refine ⟨_, exec_ok hmode (hone.trans (aluEffects_of_operands hops op w)), ?_, commit_sameRegsBut rfl,
    arithFlags_flagInput (commit_flags_of_some rfl), commit_sameUnwrittenFlags rfl, commit_advanced s i _ rfl⟩
  rw [commit_get_written rfl, hr, aluResult_toNat, Nat.mod_mod]

theorem exec_compareDone (hone : phaseOne i s = s.cmpEffects w dst src) :
    ∃ t, exec i s = .next t ∧ s.CompareDone t i w (aluNumber .sub (s.get r) v) :=
  ⟨_, exec_ok hmode (hone.trans (cmpEffects_of_operands hops w)), commit_sameRegs rfl,
    arithFlags_flagInput (commit_flags_of_some rfl), commit_sameUnwrittenFlags rfl, commit_advanced s i _ rfl⟩

end

/-! ### The obligations on completion -/

/-- Settles O39: every form has its operands, and commits the source's value. -/
theorem movToRegisterCompletes : Obligations.MovToRegisterCompletes := by
  intro s hmode
  refine ⟨fun d w x y hwf => ?_, fun w x imm hwf => ?_, fun w x imm hwf => ?_⟩
  · exact exec_moveDone hmode (operands_regs s d x y) rfl (widths_of_rmReg hwf d)
  · obtain ⟨hx, himm⟩ := Bool.and_eq_true_iff.mp hwf
    obtain ⟨v, hops, hnum⟩ := operands_imm s x (imm_present himm)
    rw [← hnum]
    exact exec_moveDone hmode hops rfl (width_of_fits hx)
  · obtain ⟨hx, himm⟩ := Bool.and_eq_true_iff.mp hwf
    obtain ⟨v, hops, hnum⟩ := operands_imm s x (imm_present himm)
    rw [← hnum]
    exact exec_moveDone hmode hops rfl (of_decide_eq_true hx)

/-- Settles O43: the sum is that of `aluNumber`, whichever register is the destination. -/
theorem addToRegisterCompletes : Obligations.AddToRegisterCompletes := by
  intro s hmode
  refine ⟨fun d w x y hwf => ?_, fun sx w x imm hwf himm => ?_, fun w imm hwf => ?_⟩
  · have hsum : aluNumber .add (s.get (if d then y else x)) (s.get (if d then x else y)) =
        (s.get x).toNat + (s.get y).toNat := by
      cases d
      · rfl
      · exact Nat.add_comm _ _
    rw [← hsum]
    exact exec_arithDone (op := .add) hmode (operands_regs s d x y) rfl (widths_of_rmReg hwf d)
  · obtain ⟨hx, -⟩ := Bool.and_eq_true_iff.mp hwf
    obtain ⟨v, hops, hnum⟩ := operands_imm s x himm
    rw [← hnum]
    exact exec_arithDone (op := .add) hmode hops rfl (width_of_fits hx)
  · obtain ⟨v, hops, hnum⟩ := operands_imm s (accOf w) (imm_present hwf)
    rw [← hnum]
    exact exec_arithDone (op := .add) hmode hops rfl (accOf_width w)

/-- Settles O44: the difference is that of `aluNumber`, destination less source. -/
theorem subFromRegisterCompletes : Obligations.SubFromRegisterCompletes := by
  intro s hmode
  refine ⟨fun d w x y hwf => ?_, fun sx w x imm hwf himm => ?_, fun w imm hwf => ?_⟩
  · exact exec_arithDone (op := .sub) hmode (operands_regs s d x y) rfl (widths_of_rmReg hwf d)
  · obtain ⟨hx, -⟩ := Bool.and_eq_true_iff.mp hwf
    obtain ⟨v, hops, hnum⟩ := operands_imm s x himm
    rw [← hnum]
    exact exec_arithDone (op := .sub) hmode hops rfl (width_of_fits hx)
  · obtain ⟨v, hops, hnum⟩ := operands_imm s (accOf w) (imm_present hwf)
    rw [← hnum]
    exact exec_arithDone (op := .sub) hmode hops rfl (accOf_width w)

/-- Settles O45: the effects of SUB without the register. -/
theorem cmpWithRegisterCompletes : Obligations.CmpWithRegisterCompletes := by
  intro s hmode
  refine ⟨fun d w x y _ => ?_, fun sx w x imm _ himm => ?_, fun w imm hwf => ?_⟩
  · exact exec_compareDone hmode (operands_regs s d x y) rfl
  · obtain ⟨v, hops, hnum⟩ := operands_imm s x himm
    rw [← hnum]
    exact exec_compareDone hmode hops rfl
  · obtain ⟨v, hops, hnum⟩ := operands_imm s (accOf w) (imm_present hwf)
    rw [← hnum]
    exact exec_compareDone hmode hops rfl

/-- The flags of the difference of two words, on the integers (R117). -/
theorem shows_word_difference {t : State} {a b : Word} (h : t.Shows ((a.toNat + 65536 - b.toNat) % 65536) 32768) :
    t.getFlag .z = decide (a = b) ∧ t.getFlag .s = decide (32768 ≤ ((a.toNat : Int) - b.toNat) % 65536) ∧
    t.getFlag .p = decide (((a.toNat : Int) - b.toNat) % 2 = 0) := by
  obtain ⟨hz, hs, hp⟩ := h
  have ha := a.isLt
  have hb := b.isLt
  refine ⟨hz.trans (decide_eq_decide.mpr ?_), hs.trans (decide_eq_decide.mpr ?_), hp.trans (decide_eq_decide.mpr ?_)⟩
  · rw [← BitVec.toNat_inj]
    omega
  · omega
  · omega

/-- Settles O47: SUB and CMP of word registers show the same difference. -/
theorem wordDifferenceFlags : Obligations.WordDifferenceFlags := by
  intro s d x y hmode hx hy a b
  have hwf : ((Rm.reg x).fits .word && decide (y.width = .word)) = true :=
    Bool.and_eq_true_iff.mpr ⟨decide_eq_true hx, decide_eq_true hy⟩
  obtain ⟨hsub, -⟩ := subFromRegisterCompletes s hmode
  obtain ⟨hcmp, -⟩ := cmpWithRegisterCompletes s hmode
  obtain ⟨t, ht, -, -, hshow, -⟩ := hsub d .word x y hwf
  obtain ⟨u, hu, -, hshow', -⟩ := hcmp d .word x y hwf
  obtain ⟨htz, hts, htp⟩ := shows_word_difference hshow
  obtain ⟨huz, hus, hup⟩ := shows_word_difference hshow'
  exact ⟨t, u, ht, hu, htz, huz, hts, hus, htp, hup⟩

/-! ### Instructions with one and the same phase one -/

/-- Two instructions with the same phase one leave the same registers, F and STATUS, and the same `ip` where they are
equally long (R9). -/
theorem exec_of_phaseOne_eq {i j : Instr} {s : State} (h : phaseOne i s = phaseOne j s) :
    ∃ t u, exec i s = .next t ∧ exec j s = .next u ∧ t.regs = u.regs ∧ t.flags = u.flags ∧ t.status = u.status ∧
      (i.len = j.len → t.ip = u.ip) := by
  cases hmode : s.params.execMode with
  | decodeOnly =>
    exact ⟨_, _, exec_decodeOnly hmode i, exec_decodeOnly hmode j, rfl, rfl, rfl, fun hlen => by simp [hlen]⟩
  | execute =>
    cases hj : phaseOne j s with
    | error k => exact ⟨_, _, exec_error hmode (h.trans hj), exec_error hmode hj, rfl, rfl, rfl, fun _ => rfl⟩
    | ok e =>
      exact ⟨_, _, exec_ok hmode (h.trans hj), exec_ok hmode hj, by simp, by simp, by simp, fun hlen => by simp [hlen]⟩

/-- Settles O40: both encodings give the one destination and the one source. -/
theorem bothMovDirectionsAgree : Obligations.BothMovDirectionsAgree := by
  intro s w x y
  obtain ⟨t, u, ht, hu, hregs, hflags, hstatus, hip⟩ :=
    exec_of_phaseOne_eq (i := .movRmReg false w (.reg x) y) (j := .movRmReg true w (.reg y) x) (s := s) rfl
  exact ⟨t, u, ht, hu, hregs, hflags, hip rfl, hstatus⟩

/-- Settles O48: the word is the sign-extended byte, so the source has one value and phase one is the same. -/
theorem signExtendedImmediateActsAsItsWord : Obligations.SignExtendedImmediateActsAsItsWord := by
  intro s rm b v hv
  obtain rfl : v = sext16 b := BitVec.eq_of_toNat_eq (hv.trans (sext16_toNat b).symm)
  have hagree : ∀ {i j : Instr}, phaseOne i s = phaseOne j s → ∃ t u, exec i s = .next t ∧ exec j s = .next u ∧
      t.regs = u.regs ∧ t.flags = u.flags ∧ t.status = u.status := by
    intro i j h
    obtain ⟨t, u, ht, hu, hregs, hflags, hstatus, -⟩ := exec_of_phaseOne_eq h
    exact ⟨t, u, ht, hu, hregs, hflags, hstatus⟩
  exact ⟨hagree rfl, hagree rfl, hagree rfl⟩

/-- CMP against SUB of the same operands, whether they are there or not. -/
theorem exec_cmp_sub {i j : Instr} {s : State} {w : Width} {dst : Rm} {src : Source} (hlen : i.len = j.len)
    (hi : phaseOne i s = s.cmpEffects w dst src) (hj : phaseOne j s = s.aluEffects .sub w dst src) :
    ∃ t u, exec i s = .next t ∧ exec j s = .next u ∧ t.flags = u.flags ∧ t.ip = u.ip ∧ t.status = u.status ∧
      s.SameRegs t := by
  cases hmode : s.params.execMode with
  | decodeOnly =>
    exact ⟨_, _, exec_decodeOnly hmode i, exec_decodeOnly hmode j, rfl, by simp [hlen], rfl, get_congr (list_regs s i)⟩
  | execute =>
    cases hops : s.operands dst src with
    | error k =>
      exact ⟨_, _, exec_error hmode (hi.trans (cmpEffects_of_operands_error hops w)),
        exec_error hmode (hj.trans (aluEffects_of_operands_error hops .sub w)), rfl, rfl, rfl, fun _ => rfl⟩
    | ok x =>
      exact ⟨_, _, exec_ok hmode (hi.trans (cmpEffects_of_operands hops w)),
        exec_ok hmode (hj.trans (aluEffects_of_operands hops .sub w)), by simp, by simp [hlen], by simp,
        commit_sameRegs rfl⟩

/-- Settles O46: CMP has the operands and the flag input of SUB, in every form. -/
theorem cmpSetsTheFlagsOfSub : Obligations.CmpSetsTheFlagsOfSub := by
  intro s
  exact ⟨fun _ _ _ _ => exec_cmp_sub rfl rfl rfl, fun _ _ _ _ => exec_cmp_sub rfl rfl rfl,
    fun _ _ => exec_cmp_sub rfl rfl rfl⟩

/-! ### The taken `jne` -/

theorem jumpTarget_relOf (s : State) (rel : Byte) : s.jumpTarget (relOf rel) =
    (s.ip.toNat : Int) + 2 + (if rel.toNat < 128 then (rel.toNat : Int) else (rel.toNat : Int) - 256) := by
  rw [State.jumpTarget, relOf, signed16_sext16]

theorem phaseOne_jne_taken {s : State} (hz : s.getFlag .z = false) (rel : Byte) :
    phaseOne (.jne rel) s = s.jumpEffects (relOf rel) := by
  simp only [phaseOne, hz, Bool.false_eq_true, if_false]

theorem jumpEffects_inside {s : State} {rel : Int} (h0 : 0 ≤ s.jumpTarget rel) (h1 : s.jumpTarget rel ≤ 65535) :
    s.jumpEffects rel = .ok { jump := some rel } := if_neg (by omega)

theorem jumpEffects_outside {s : State} {rel : Int} (h : s.jumpTarget rel < 0 ∨ 65535 < s.jumpTarget rel) :
    s.jumpEffects rel = .error .ipOutOfRange := if_pos h

/-- Settles O50: inside the range the jump is committed and stands at its target; outside, the fault is taken. -/
theorem takenJneGoesToItsTarget : Obligations.TakenJneGoesToItsTarget := by
  intro s rel hmode hz target
  have hone := phaseOne_jne_taken hz rel
  have htarget : s.jumpTarget (relOf rel) = target := jumpTarget_relOf s rel
  rw [← htarget]
  refine ⟨fun h0 h1 => ?_, fun hout => exec_faultTaken hmode (hone.trans (jumpEffects_outside hout))⟩
  exact ⟨_, exec_ok hmode (hone.trans (jumpEffects_inside h0 h1)), commit_jump_ip rfl h0 h1, commit_sameRegs rfl,
    commit_flags_of_none rfl, ⟨commit_status _ _ _, commit_faultRec _ _ _, sameProgram_of_params (commit_params _ _ _)⟩,
    _, commit_trace _ _ _, rfl, rfl⟩

/-- One step of a `jne` that jumps to itself: only the trace grows (R96). -/
theorem step_jne_self {s : State} (hrun : s.status = .run) (hmode : s.params.execMode = .execute)
    (hz : s.getFlag .z = false) (h0 : s.fetch s.ip.toNat = some 0x75) (h1 : s.fetch (s.ip.toNat + 1) = some 0xFE) :
    ∃ t, step s = .next t ∧ t.status = .run ∧ t.ip = s.ip ∧ s.SameRegs t ∧ t.flags = s.flags ∧ t.params = s.params ∧
      t.trace.length = s.trace.length + 1 := by
  have hfits : s.fits (.jne 0xFE) := by
    unfold State.fetch at h1
    split at h1
    · assumption
    · cases h1
  have hbytes : ∀ k < (Instr.jne 0xFE).len, s.fetch (s.ip.toNat + k) = (encode (.jne 0xFE))[k]? := by
    intro k hk
    have hk2 : k < 2 := hk
    interval_cases k
    · exact h0
    · exact h1
  obtain ⟨hin, -⟩ := takenJneGoesToItsTarget s 0xFE hmode hz
  have hself : s.jumpTarget (relOf 0xFE) = s.ip.toNat := by
    rw [State.jumpTarget, show relOf 0xFE = -2 by decide]
    omega
  rw [jumpTarget_relOf] at hself
  have hip := s.ip.isLt
  obtain ⟨t, ht, hto, hregs, hflags, ⟨hstatus, -, hparams, -⟩, r, htrace, -⟩ :=
    hin ((Int.natCast_nonneg _).trans hself.ge) (hself.le.trans (by omega))
  exact ⟨t, (stepRunsTheInstructionInTheBuffer s _ hrun rfl hfits hbytes).trans ht, hstatus.trans hrun,
    BitVec.eq_of_toNat_eq (Int.ofNat.inj (hto.trans hself)), hregs, hflags, hparams, by simp [htrace]⟩

/-- Settles O52: after one step the same holds with a longer trace, so induction on the number of steps. -/
theorem jneToItselfNeverEnds : Obligations.JneToItselfNeverEnds := by
  intro s n hrun hmode hz h0 h1
  induction n generalizing s with
  | zero => exact ⟨s, rfl, hrun, rfl, fun _ => rfl, rfl, rfl⟩
  | succ n ih =>
    obtain ⟨t, hstep, hrun', hip, hregs, hflags, hparams, htrace⟩ := step_jne_self hrun hmode hz h0 h1
    obtain ⟨u, hu, hrunu, hipu, hregsu, hflagsu, htraceu⟩ := ih t hrun' (hparams ▸ hmode)
      ((getFlag_congr hflags .z).trans hz) (by rw [hip, fetch_congr hparams]; exact h0)
      (by rw [hip, fetch_congr hparams]; exact h1)
    exact ⟨u, (run_succ_of_step hstep n).trans hu, hrunu, hipu.trans hip, fun q => (hregsu q).trans (hregs q),
      hflagsu.trans hflags, by omega⟩

end Sys2Proof.Machine
end
